-- ==== Sys2Proof/Word.lean ====
section
/-! DEFINITION. The word types of the dokkan screen-driver core. -/

namespace Sys2Proof

/-- One byte: what every bus transaction moves (R52). -/
abbrev Byte := BitVec 8

/-- A 16-bit value: a cursor offset (R9), or a port number (R46). -/
abbrev Half := BitVec 16

/-- A 32-bit value: a command word (R70), `RESULT` (R21), `STATUS` (R23), `FAULT_CMD` (R24). -/
abbrev Word := BitVec 32

end Sys2Proof
end

