-- ==== Sys2Proof/Config.lean ====
section
/-! DEFINITION. What is fixed for the block: the parameters of R7 to R9, and the values the spec leaves unspecified. -/

namespace Sys2Proof.Config

/-! ### The parameters of R7 -/

/-- `COLS`, columns of the grid. -/
@[simp] def cols : Nat := 80

/-- `ROWS`, rows of the grid. -/
@[simp] def rows : Nat := 25

/-- `CELL_BYTES`, bytes of a cell: its character byte, then its attribute byte. -/
@[simp] def cellBytes : Nat := 2

/-- `VBASE`, the physical address of cell 0. -/
@[simp] def vbase : Nat := 0x000B8000

/-- `CRTC_INDEX_PORT`, the control register (register select). -/
@[simp] def crtcIndexPort : Half := 0x03D4

/-- `CRTC_DATA_PORT`, the data register. -/
@[simp] def crtcDataPort : Half := 0x03D5

/-- `CUR_HI_INDEX`, the select value of the cursor's high byte. -/
@[simp] def curHiIndex : Byte := 0x0E

/-- `CUR_LO_INDEX`, the select value of the cursor's low byte. -/
@[simp] def curLoIndex : Byte := 0x0F

/-! ### The derived parameters of R8 -/

/-- `CELLS = ROWS * COLS`. -/
@[simp] def cells : Nat := rows * cols

/-- `ROW_BYTES = COLS * CELL_BYTES`. -/
@[simp] def rowBytes : Nat := cols * cellBytes

/-- `VRAM_BYTES = CELLS * CELL_BYTES`. -/
@[simp] def vramBytes : Nat := cells * cellBytes

/-- `LAST_ROW = ROWS - 1`. -/
@[simp] def lastRow : Nat := rows - 1

/-- `LAST_COL = COLS - 1`. -/
@[simp] def lastCol : Nat := cols - 1

/-! ### The parameters the source leaves open, at the spec's values (R9; log 12) -/

/-- `BLANK_CHAR`, ASCII space (R9). -/
@[simp] def blankChar : Byte := 0x20

/-- `NEWLINE_CHAR`, ASCII line feed (R9). -/
@[simp] def newlineChar : Byte := 0x0A

/-- `DEFAULT_ATTR`, green on black (R9). -/
@[simp] def defaultAttr : Byte := 0x02

/-- What a scroll does with the attribute bytes of the row it frees (R9 `SCROLL_ATTR_POLICY`; 93 I6). -/
inductive ScrollAttrPolicy where
  /-- Keep them (the policy taken). -/
  | keep
  /-- Write `DEFAULT_ATTR` to them (D10: "not taken"). -/
  | resetToDefault
deriving DecidableEq, Repr

/-- `SCROLL_ATTR_POLICY` = `keep` (R9, R144; 90_conflicts C1). -/
@[simp] def scrollAttrPolicy : ScrollAttrPolicy := .keep

/-! ### Unspecified values: free draws (R32, R231)

None of these has a body: nothing can be proved about the value. -/

/-- `CRTC_INDEX` at power-on. DESIGN CHOICE (log 1): a free draw; safe for every claim that does not compare two
power-ons. -/
opaque powerOnIndex : Byte

/-- `CUR_HI` at power-on. DESIGN CHOICE (log 1): a free draw. -/
opaque powerOnCurHi : Byte

/-- `CUR_LO` at power-on. DESIGN CHOICE (log 1): a free draw. -/
opaque powerOnCurLo : Byte

/-- The byte of the video buffer at an address nothing has written since power-on. DESIGN CHOICE (log 3): a free draw per
address. -/
opaque powerOnByte : Nat → Byte

/-- The value reset leaves in `OFF` at its n-th draw (R230 "`OFF` is left unspecified"). DESIGN CHOICE (log 2). -/
opaque unspecifiedOff : Nat → Half

end Sys2Proof.Config
end

