-- ==== Sys2Proof/Machine/State.lean ====
section
/-! DEFINITION. The state of the block and of the adapter it drives (R35), the reasons a step can stop, and reset. -/

namespace Sys2Proof.Machine

/-- The states of the command sequencer (R27). The binary encoding is not architected. -/
inductive Fsm where
  /-- Accepting a command. -/
  | idle
  /-- Executing a command, no cursor sequence in progress. -/
  | exec
  /-- The sub-states of a cursor read (R121). -/
  | g1 | g2 | g3 | g4
  /-- The sub-states of a cursor write (R121). -/
  | s1 | s2 | s3 | s4
  /-- The row shift of a scroll (R141 (a)). -/
  | scCopy
  /-- The blanking of the last row (R141 (b)). -/
  | scBlank
  /-- The fill loop of CLEAR (R167). -/
  | clFill
  /-- A fault has been raised (R206). -/
  | halted
deriving DecidableEq, Repr

/-- The fault causes of R200. -/
inductive FaultCause where
  /-- Raised by any word that is no command (R201). -/
  | illegalCommand
  /-- Raised by PUTC_AT when `col >= 80` or `row >= 25` (R202). -/
  | coordRange
  /-- Raised by PUTC when the cursor read is 2000 or more (R203). -/
  | outOfGrid
deriving DecidableEq, Repr

/-- One bus transaction, with the byte it moved (R12, R52). -/
inductive Txn where
  | memRead (addr : Nat) (v : Byte)
  | memWrite (addr : Nat) (v : Byte)
  | portRead (port : Half) (v : Byte)
  | portWrite (port : Half) (v : Byte)
deriving DecidableEq, Repr

/-- What the host can do to the block besides reading its registers (R31, R70, R230). -/
inductive HostAction where
  /-- Submit one command word. -/
  | submit (w : Word)
  /-- Reset the block. -/
  | reset
deriving DecidableEq, Repr

/-- The bytes of the video buffer that have been written since power-on: addresses strictly rising, one entry an address. An
address without an entry has not been written; a transaction that reads it gets its power-on draw (log 3). -/
abbrev Memory := List Host.Cell

/-- The whole state (R35). -/
structure State where
  /-- `RESULT` (R21). -/
  result : Word
  /-- `STATUS` (R23), all but `BUSY`, which is a view of `fsm` (log 6): bit 0 of this field stays 0. -/
  status : Word
  /-- `FAULT_CMD` (R24). -/
  faultCmd : Word
  /-- `FAULT_VAL` (R25). -/
  faultVal : Half
  /-- `OFF` (R26), internal. -/
  off : Half
  /-- `FSM` (R27), internal. -/
  fsm : Fsm
  /-- `CRTC_INDEX`, the adapter's index latch (R28). -/
  crtcIndex : Byte
  /-- `CUR_HI`, the adapter's cursor high byte (R28). -/
  curHi : Byte
  /-- `CUR_LO`, the adapter's cursor low byte (R28). -/
  curLo : Byte
  /-- `VRAM`, the video buffer (R30). -/
  vram : Memory
  /-- The bus transactions performed so far, newest first (R35, R55). -/
  busLog : List Txn
  /-- What the host will do, next action first: the command stream of R34. The model's own field (log 4). -/
  host : List HostAction
  /-- How many unspecified values `OFF` has been given. The model's own field (log 2). -/
  draws : Nat
deriving DecidableEq, Repr

/-- The reasons a step stops with a fault. The block's own faults (R200) are next states, not these. -/
inductive Fault where
  /-- Raised by a step from `HALTED` unless the host resets: no word is taken (R206: "A model represents the halted state as
  a fault"). Safe: the spec's own stop. -/
  | halted
  /-- Raised by a step from an FSM sub-state, which no step leaves and no reset gives (R27). Safe: never reached. -/
  | midCommand
  /-- Raised by a memory transaction outside the video buffer, which the block never issues (R40). Safe: never reached. -/
  | outsideBuffer
deriving DecidableEq, Repr

/-- The reasons a step is refused. -/
inductive Refusal where
  /-- Raised by `exec` for a command without a meaning, by its mnemonic. Safe. No command is left so. -/
  | notModelled (mnemonic : String)
  /-- Raised by a port transaction to which R48 gives no meaning and which the block never issues (R50; 93 I11: `refuse`).
  Safe: never reached. -/
  | adapterUnspecified
deriving DecidableEq, Repr

/-- The machine after power-on and reset (R32, R230, R231): block registers zero, `IDLE`, no transaction performed; the
adapter's registers, the buffer and `OFF` are free draws (log 1 to 3); the host has submitted nothing (log 4). -/
def State.reset : State where
  result := 0
  status := 0
  faultCmd := 0
  faultVal := 0
  off := Config.unspecifiedOff 0
  fsm := .idle
  crtcIndex := Config.powerOnIndex
  curHi := Config.powerOnCurHi
  curLo := Config.powerOnCurLo
  vram := []
  busLog := []
  host := []
  draws := 1

end Sys2Proof.Machine
end

