-- ==== Sys2Proof/Machine/Flags.lean ====
section
/-! DEFINITION. The fields of `STATUS` (R23), the block's only flags (R33), and the fault codes (R200). -/

namespace Sys2Proof.Machine

/-- `FCODE` of each fault (R200). -/
def FaultCause.code : FaultCause → BitVec 4
  | .illegalCommand => 1
  | .coordRange => 2
  | .outOfGrid => 3

/-- `BUSY`: a command is executing, "FSM not `IDLE` and not `HALTED`" (R23). -/
def Fsm.busy : Fsm → Bool
  | .idle | .halted => false
  | .exec | .g1 | .g2 | .g3 | .g4 | .s1 | .s2 | .s3 | .s4 | .scCopy | .scBlank | .clFill => true

/-- What a fault writes to `STATUS`: `{24'b0, FCODE, 2'b00, FAULT=1, BUSY=0}` (R204). -/
def faultStatus (cause : FaultCause) : Word :=
  (0 : BitVec 24) ++ cause.code ++ (0 : BitVec 2) ++ (1 : BitVec 1) ++ (0 : BitVec 1)

/-- `STATUS` as the host reads it: the stored bits, and `BUSY` in bit 0 (R23). -/
def State.statusView (s : State) : Word := s.status ||| (if s.fsm.busy then 1 else 0)

/-- `STATUS.BUSY`, bit 0. -/
def busyBit (st : Word) : Bool := st.getLsbD 0

/-- `STATUS.FAULT`, bit 1. -/
def faultBit (st : Word) : Bool := st.getLsbD 1

/-- `STATUS.FCODE`, bits 7:4. -/
def fcode (st : Word) : BitVec 4 := st.extractLsb' 4 4

/-- The reserved bits 3:2 and 31:8 of `STATUS`, which read as 0 (R23). -/
def statusReservedZero (st : Word) : Bool :=
  decide (st.extractLsb' 2 2 = 0) && decide (st.extractLsb' 8 24 = 0)

end Sys2Proof.Machine
end

