-- ==== Sys2Proof/Machine/Operands.lean ====
section
/-! DEFINITION. The address calculator: the offsets and addresses commands compute from their operands (40_address_calc).
All exact natural numbers (R11). -/

namespace Sys2Proof.Machine

/-- `OffsetOf(col, row)` (R101): no bounds clamping. -/
def offsetOf (col row : Nat) : Nat := row * Config.cols + col

/-- `RowOf(o)` (R103). -/
def rowOf (o : Nat) : Nat := o / Config.cols

/-- `LineEnd(o)`, the last column of the row of `o` (R108). -/
def lineEnd (o : Nat) : Nat := offsetOf (Config.cols - 1) (rowOf o)

/-- `CellAddr(o)`, the address of the character byte of cell `o` (R106). -/
def cellAddr (o : Nat) : Nat := Config.vbase + Config.cellBytes * o

/-- The address of the attribute byte of cell `o` (R13, R42). -/
def attrAddr (o : Nat) : Nat := cellAddr o + 1

/-- The address of byte `b` of row `r` (R45). -/
def rowByteAddr (r b : Nat) : Nat := Config.vbase + Config.rowBytes * r + b

/-- `o < CELLS`: the offset is in the grid (R140). -/
def inGrid (o : Nat) : Bool := decide (o < Config.cells)

/-- `col < COLS` and `row < ROWS`: the coordinate is valid (R109, R202). -/
def coordInGrid (col row : Nat) : Bool := decide (col < Config.cols) && decide (row < Config.rows)

/-- `addr` is an address of the video buffer (R8, R40). -/
def inBuffer (addr : Nat) : Bool :=
  decide (Config.vbase ≤ addr) && decide (addr < Config.vbase + Config.vramBytes)

/-- `v[15:8]` of a cursor value (R44). -/
def hiByte (v : Half) : Byte := v.extractLsb' 8 8

/-- `v[7:0]` of a cursor value (R44). -/
def loByte (v : Half) : Byte := v.extractLsb' 0 8

/-- `{hi, lo}` (R10, R44). -/
def joinBytes (hi lo : Byte) : Half := hi ++ lo

/-- The attribute byte of a background and a foreground colour, "packed (background<<4 | foreground)" (R43). The block takes
attribute bytes whole and never looks inside one. -/
def packAttr (background foreground : BitVec 4) : Byte := background ++ foreground

/-- The cursor, `CURSOR = {CUR_HI, CUR_LO}` (R28). -/
def State.cursor (s : State) : Half := joinBytes s.curHi s.curLo

end Sys2Proof.Machine
end

