-- ==== Sys2Proof/Machine/Ops.lean ====
section
/-! DEFINITION. The shared operations: the video buffer, the four bus transactions (R12), the cursor sequences (R121), fault
entry (R204) and the way out of it, reset (R230). -/

namespace Sys2Proof.Machine

/-! ### Sequencing -/

/-- The outcome of part of a command. -/
abbrev Run (α : Type) := Host.Outcome α Fault Refusal

/-- Do `r`, then `k` with what `r` gave; a stop stays a stop (R55: one at a time, in the order written). -/
def Run.andThen {α β : Type} (r : Run α) (k : α → Run β) : Run β :=
  match r with
  | .next a => k a
  | .fault f => .fault f
  | .refused q => .refused q

/-- A loop of the pseudocode: `body x` for each `x` of the list, in the list's order. -/
def forEach {α : Type} (body : α → State → Run State) : List α → State → Run State
  | [], s => .next s
  | x :: xs, s => (body x s).andThen fun s' => forEach body xs s'

/-! ### The video buffer as data -/

/-- The byte written at `a`, if any. -/
def Memory.lookup : Memory → Nat → Option Byte
  | [], _ => none
  | (k, v) :: m, a => if a = k then some v else Memory.lookup m a

/-- What an address nothing has written reads as: its power-on draw (R32, R41; log 3). -/
def Memory.unwritten (a : Nat) : Byte := Config.powerOnByte a

/-- The byte at `a`: "the byte most recently written at `a`, or the unspecified reset content" (R41). -/
def Memory.read (m : Memory) (a : Nat) : Byte := (Memory.lookup m a).getD (Memory.unwritten a)

/-- `m` with `v` written at `a`, in the canonical form. -/
def Memory.write : Memory → Nat → Byte → Memory
  | [], a, v => [(a, v)]
  | (k, u) :: m, a, v =>
    if a < k then (a, v) :: (k, u) :: m
    else if a = k then (a, v) :: m
    else (k, u) :: Memory.write m a v

/-- The canonical form: addresses strictly rising, all in the video buffer (R30). -/
abbrev Memory.wf (m : Memory) : Prop :=
  List.Pairwise (fun x y => x.1 < y.1) m ∧ ∀ c ∈ m, inBuffer c.1 = true

/-! ### The four bus transactions (R12) -/

/-- The transaction `t` has been performed (R55). -/
def record (t : Txn) (s : State) : State := { s with busLog := t :: s.busLog }

/-- `MemRead(addr, 1)` (R12, R41). Outside the buffer it stops: the block never does it (R40). -/
def memRead (addr : Nat) (s : State) : Run (Byte × State) :=
  if inBuffer addr then
    .next (Memory.read s.vram addr, record (.memRead addr (Memory.read s.vram addr)) s)
  else .fault .outsideBuffer

/-- `MemWrite(addr, 1, v)` (R12, R41). Outside the buffer it stops: the block never does it (R40). -/
def memWrite (addr : Nat) (v : Byte) (s : State) : Run State :=
  if inBuffer addr then
    .next (record (.memWrite addr v) { s with vram := Memory.write s.vram addr v })
  else .fault .outsideBuffer

/-- `PortRead(port)` (R12), by the register map of R48. Any other read has no meaning (R50; log 10). -/
def portRead (port : Half) (s : State) : Run (Byte × State) :=
  if port = Config.crtcDataPort then
    if s.crtcIndex = Config.curHiIndex then .next (s.curHi, record (.portRead port s.curHi) s)
    else if s.crtcIndex = Config.curLoIndex then .next (s.curLo, record (.portRead port s.curLo) s)
    else .refused .adapterUnspecified
  else .refused .adapterUnspecified

/-- `PortWrite(port, v)` (R12), by the register map of R48. Any other write has no meaning (R50; log 10). -/
def portWrite (port : Half) (v : Byte) (s : State) : Run State :=
  if port = Config.crtcIndexPort then
    .next (record (.portWrite port v) { s with crtcIndex := v })
  else if port = Config.crtcDataPort then
    if s.crtcIndex = Config.curHiIndex then .next (record (.portWrite port v) { s with curHi := v })
    else if s.crtcIndex = Config.curLoIndex then .next (record (.portWrite port v) { s with curLo := v })
    else .refused .adapterUnspecified
  else .refused .adapterUnspecified

/-! ### The sequencer -/

/-- The sequencer moves to `f` (R27). -/
def enter (f : Fsm) (s : State) : State := { s with fsm := f }

/-- A command has ended: the block accepts the next (R27, R56). -/
def complete (s : State) : State := enter .idle s

/-- `RESULT <- v` (R21). -/
def setResult (v : Word) (s : State) : State := { s with result := v }

/-- `OFF <- o` (R26). -/
def setOff (o : Half) (s : State) : State := { s with off := o }

/-! ### The cursor protocol (R121): one transaction in each sub-state -/

/-- `G1`: select high. -/
def readSelectHigh (s : State) : Run State :=
  (portWrite Config.crtcIndexPort Config.curHiIndex s).andThen fun s' => .next (enter .g2 s')

/-- `G2`: transfer high. -/
def readTransferHigh (s : State) : Run (Byte × State) :=
  (portRead Config.crtcDataPort s).andThen fun p => .next (p.1, enter .g3 p.2)

/-- `G3`: select low. -/
def readSelectLow (s : State) : Run State :=
  (portWrite Config.crtcIndexPort Config.curLoIndex s).andThen fun s' => .next (enter .g4 s')

/-- `G4`: transfer low, and return to the command. -/
def readTransferLow (s : State) : Run (Byte × State) :=
  (portRead Config.crtcDataPort s).andThen fun p => .next (p.1, enter .exec p.2)

/-- `CursorRead()` (R122). -/
def cursorRead (s : State) : Run (Half × State) :=
  (readSelectHigh (enter .g1 s)).andThen fun s1 =>
  (readTransferHigh s1).andThen fun hi =>
  (readSelectLow hi.2).andThen fun s3 =>
  (readTransferLow s3).andThen fun lo =>
  .next (joinBytes hi.1 lo.1, lo.2)

/-- `S1`: select high. -/
def writeSelectHigh (s : State) : Run State :=
  (portWrite Config.crtcIndexPort Config.curHiIndex s).andThen fun s' => .next (enter .s2 s')

/-- `S2`: transfer high. -/
def writeTransferHigh (v : Half) (s : State) : Run State :=
  (portWrite Config.crtcDataPort (hiByte v) s).andThen fun s' => .next (enter .s3 s')

/-- `S3`: select low. -/
def writeSelectLow (s : State) : Run State :=
  (portWrite Config.crtcIndexPort Config.curLoIndex s).andThen fun s' => .next (enter .s4 s')

/-- `S4`: transfer low, and return to the command. -/
def writeTransferLow (v : Half) (s : State) : Run State :=
  (portWrite Config.crtcDataPort (loByte v) s).andThen fun s' => .next (enter .exec s')

/-- `CursorWrite(v)` (R124). -/
def cursorWrite (v : Half) (s : State) : Run State :=
  (writeSelectHigh (enter .s1 s)).andThen fun s1 =>
  (writeTransferHigh v s1).andThen fun s2 =>
  (writeSelectLow s2).andThen fun s3 =>
  writeTransferLow v s3

/-! ### Fault entry, and the only way out of it -/

/-- A command raises fault `cause` with value `val` (R204). `cmd` is its command word. Nothing else changes (R205). -/
def raiseFault (cause : FaultCause) (val : Half) (cmd : Word) (s : State) : State :=
  { s with
    status := faultStatus cause
    faultCmd := cmd
    faultVal := val
    fsm := .halted }

/-- Reset of the block (R230): its registers are cleared and `OFF` is given an unspecified value; the adapter's registers and
the video buffer keep what they hold, and no transaction is performed (R231). The only way out of `HALTED` (R209). -/
def blockReset (s : State) : State :=
  { s with
    result := 0
    status := 0
    faultCmd := 0
    faultVal := 0
    off := Config.unspecifiedOff s.draws
    fsm := .idle
    draws := s.draws + 1 }

end Sys2Proof.Machine
end

