-- ==== Sys2Proof/Machine/AddressCalc.lean ====
section
/-! DEFINITION. OFFSET_OF, ROW_OF and CELL_ADDR (40_address_calc): they write `RESULT` and do nothing else (R100). -/

namespace Sys2Proof.Machine

/-- `RESULT <- v`, and the command has ended: the whole effect of an address command (R100). -/
def answerWith (v : Nat) (s : State) : Run State := .next (complete (setResult (BitVec.ofNat 32 v) s))

/-- `OFFSET_OF col, row`: `RESULT <- zext_32(OffsetOf(col, row))` (R102). -/
def execOffsetOf (col row : Nat) (s : State) : Run State := answerWith (offsetOf col row) s

/-- `ROW_OF off`: `RESULT <- zext_32(RowOf(off))` (R104). -/
def execRowOf (off : Half) (s : State) : Run State := answerWith (rowOf off.toNat) s

/-- `CELL_ADDR off`: `RESULT <- CellAddr(off)` (R107). -/
def execCellAddr (off : Half) (s : State) : Run State := answerWith (cellAddr off.toNat) s

end Sys2Proof.Machine
end

