-- ==== Sys2Proof/Syntax.lean ====
section
/-! DEFINITION. The nine commands of the DKV command set, one constructor per row of the opcode table (R78). -/

namespace Sys2Proof

/-- A command with its operands (R77), in the order of the assembler syntax (R83). Coordinates are counts, so natural
numbers (R11) whose fit to their fields `Instr.WellFormed` checks; offsets, characters and attributes have the exact width
of their fields. -/
inductive Instr where
  | offsetOf (col row : Nat)                    -- OFFSET_OF, R102
  | rowOf (off : Half)                          -- ROW_OF, R104
  | cellAddr (off : Half)                       -- CELL_ADDR, R107
  | getCursor                                   -- GET_CURSOR, R123
  | setCursor (off : Half)                      -- SET_CURSOR, R125
  | scroll (off : Half)                         -- SCROLL, R142
  | putc (ch attr : Byte)                       -- PUTC, R161
  | putcAt (ch attr : Byte) (col row : Nat)     -- PUTC_AT, R162
  | clear                                       -- CLEAR, R167
deriving DecidableEq, Repr

end Sys2Proof
end

