-- ==== Sys2Proof/WellFormed.lean ====
section
/-! DEFINITION. When a command can be written as a command word: every operand fits its field (R77, R83). -/

namespace Sys2Proof

/-- `col` fits its 7-bit field (R77: "`col = cmd[22:16]` (0 to 127)"). -/
def colFits (col : Nat) : Bool := decide (col < 128)

/-- `row` fits its 5-bit field (R77: "`row = cmd[27:23]` (0 to 31)"). -/
def rowFits (row : Nat) : Bool := decide (row < 32)

/-- The operands fit their fields (R83: "refuses an operand that does not fit its field"). Out-of-grid coordinates that fit
are well-formed: R109 and R202 say what becomes of them. -/
def Instr.WellFormed : Instr → Bool
  | .offsetOf col row => colFits col && rowFits row
  | .rowOf _ => true
  | .cellAddr _ => true
  | .getCursor => true
  | .setCursor _ => true
  | .scroll _ => true
  | .putc _ _ => true
  | .putcAt _ _ col row => colFits col && rowFits row
  | .clear => true

end Sys2Proof
end

