-- ==== Sys2Proof/Decode.lean ====
section
/-! DEFINITION. The decoder of command words (R70 to R81), the encoder, and the opcode table of R78 as data. -/

namespace Sys2Proof

/-- The field of `len` bits of `w` whose lowest bit is bit `lo` (R10: `v[lo+len-1:lo]`). -/
def field (w : Word) (lo len : Nat) : BitVec len := w.extractLsb' lo len

/-- Why a word is no command (R80, R81): both raise ILLEGAL_COMMAND (R201). -/
inductive Reject where
  /-- `op` is 0x0 or 0xA to 0xF (R80). -/
  | reservedOpcode
  /-- A defined `op` with a non-zero reserved field (R81). -/
  | reservedField
deriving DecidableEq, Repr

/-- `op = cmd[31:28]` (R71). -/
def opOf (w : Word) : Nat := (field w 28 4).toNat

/-- `row = cmd[27:23]` (R77). -/
def rowField (w : Word) : Nat := (field w 23 5).toNat

/-- `col = cmd[22:16]` (R77). -/
def colField (w : Word) : Nat := (field w 16 7).toNat

/-- `off = cmd[15:0]` (R77). -/
def offField (w : Word) : Half := field w 0 16

/-- `attr = cmd[15:8]` (R77). -/
def attrField (w : Word) : Byte := field w 8 8

/-- `ch = cmd[7:0]` (R77). -/
def chField (w : Word) : Byte := field w 0 8

/-- The command `i` if the reserved field is zero, else the rejection of R81. -/
def unlessReserved (reservedIsZero : Bool) (i : Instr) : Except Reject Instr :=
  if reservedIsZero then .ok i else .error .reservedField

/-- The reserved field `cmd[15:0]` of format K is zero (R72). -/
def reservedK (w : Word) : Bool := decide (field w 0 16 = 0)

/-- The reserved field `cmd[27:16]` of formats B and C is zero (R74, R75). -/
def reservedBC (w : Word) : Bool := decide (field w 16 12 = 0)

/-- The reserved field `cmd[27:0]` of format N is zero (R76). -/
def reservedN (w : Word) : Bool := decide (field w 0 28 = 0)

/-- The command a word stands for, or why it stands for none (R79). Total. -/
def decode (w : Word) : Except Reject Instr :=
  match opOf w with
  | 0x1 => unlessReserved (reservedK w) (.offsetOf (colField w) (rowField w))
  | 0x2 => unlessReserved (reservedBC w) (.rowOf (offField w))
  | 0x3 => unlessReserved (reservedBC w) (.cellAddr (offField w))
  | 0x4 => unlessReserved (reservedN w) .getCursor
  | 0x5 => unlessReserved (reservedBC w) (.setCursor (offField w))
  | 0x6 => unlessReserved (reservedBC w) (.scroll (offField w))
  | 0x7 => unlessReserved (reservedBC w) (.putc (chField w) (attrField w))
  | 0x8 => .ok (.putcAt (chField w) (attrField w) (colField w) (rowField w))
  | 0x9 => unlessReserved (reservedN w) .clear
  | _ => .error .reservedOpcode

/-- A command word of format K (R72): `op`, `row`, `col`, zeros. -/
def formatK (op row col : Nat) : Word :=
  BitVec.ofNat 32 (op * 2 ^ 28 + row * 2 ^ 23 + col * 2 ^ 16)

/-- A command word of format A (R73): `op`, `row`, `col`, `attr`, `ch`. -/
def formatA (op row col : Nat) (attr ch : Byte) : Word :=
  BitVec.ofNat 32 (op * 2 ^ 28 + row * 2 ^ 23 + col * 2 ^ 16 + attr.toNat * 2 ^ 8 + ch.toNat)

/-- A command word of format B (R74): `op`, zeros, `off`. -/
def formatB (op : Nat) (off : Half) : Word := BitVec.ofNat 32 (op * 2 ^ 28 + off.toNat)

/-- A command word of format C (R75): `op`, zeros, `attr`, `ch`. -/
def formatC (op : Nat) (attr ch : Byte) : Word :=
  BitVec.ofNat 32 (op * 2 ^ 28 + attr.toNat * 2 ^ 8 + ch.toNat)

/-- A command word of format N (R76): `op`, zeros. -/
def formatN (op : Nat) : Word := BitVec.ofNat 32 (op * 2 ^ 28)

/-- The command word of a command (R72 to R78). -/
def encode : Instr → Word
  | .offsetOf col row => formatK 0x1 row col
  | .rowOf off => formatB 0x2 off
  | .cellAddr off => formatB 0x3 off
  | .getCursor => formatN 0x4
  | .setCursor off => formatB 0x5 off
  | .scroll off => formatB 0x6 off
  | .putc ch attr => formatC 0x7 attr ch
  | .putcAt ch attr col row => formatA 0x8 row col attr ch
  | .clear => formatN 0x9

/-! ### The opcode table of R78, as the spec prints it -/

/-- A row of R78: a word `w` selects it when `w & mask = match`. -/
structure OpcodeRow where
  mnemonic : String
  matchWord : Word
  mask : Word
deriving DecidableEq, Repr

/-- "A word `w` selects the row whose `(w & mask) == match`" (R78). -/
def OpcodeRow.selects (r : OpcodeRow) (w : Word) : Bool := decide (w &&& r.mask = r.matchWord)

/-- The row of R78 of each command. -/
def Instr.opcodeRow : Instr → OpcodeRow
  | .offsetOf _ _ => ⟨"OFFSET_OF", 0x10000000, 0xF000FFFF⟩
  | .rowOf _ => ⟨"ROW_OF", 0x20000000, 0xFFFF0000⟩
  | .cellAddr _ => ⟨"CELL_ADDR", 0x30000000, 0xFFFF0000⟩
  | .getCursor => ⟨"GET_CURSOR", 0x40000000, 0xFFFFFFFF⟩
  | .setCursor _ => ⟨"SET_CURSOR", 0x50000000, 0xFFFF0000⟩
  | .scroll _ => ⟨"SCROLL", 0x60000000, 0xFFFF0000⟩
  | .putc _ _ => ⟨"PUTC", 0x70000000, 0xFFFF0000⟩
  | .putcAt _ _ _ _ => ⟨"PUTC_AT", 0x80000000, 0xF0000000⟩
  | .clear => ⟨"CLEAR", 0x90000000, 0xFFFFFFFF⟩

/-- The nine rows of R78. -/
def opcodeTable : List OpcodeRow :=
  [Instr.opcodeRow (.offsetOf 0 0), Instr.opcodeRow (.rowOf 0), Instr.opcodeRow (.cellAddr 0),
   Instr.opcodeRow .getCursor, Instr.opcodeRow (.setCursor 0), Instr.opcodeRow (.scroll 0),
   Instr.opcodeRow (.putc 0 0), Instr.opcodeRow (.putcAt 0 0 0 0), Instr.opcodeRow .clear]

/-- The instruction the decoder reads from a word numbered as the opcode table numbers it. A command is one 32-bit word
(R70); a number that does not fit 32 bits is none. -/
def decodeTableWord (nbits w : Nat) : Option Instr :=
  if w % 2 ^ nbits < 2 ^ 32 then (decode (BitVec.ofNat 32 (w % 2 ^ nbits))).toOption else none

end Sys2Proof
end

