-- ==== Sys2Proof/Machine/Scrolling.lean ====
section
/-! DEFINITION. The scrolling engine and SCROLL (42_scrolling). -/

namespace Sys2Proof.Machine

/-- Byte `b` of row `r` moves one row up: one read, then one write (R141 (a)). -/
def copyByte (r b : Nat) (s : State) : Run State :=
  (memRead (rowByteAddr r b) s).andThen fun p => memWrite (rowByteAddr (r - 1) b) p.1 p.2

/-- Row `r` moves one row up, its bytes in ascending order (R141 (a)). -/
def copyRow (r : Nat) (s : State) : Run State :=
  forEach (copyByte r) (List.range Config.rowBytes) s

/-- The row shift, rows 1 to 24 in ascending order (R141 (a), R143). -/
def shiftRows (s : State) : Run State :=
  forEach copyRow (List.range' 1 Config.lastRow) s

/-- The cell of column `c` of the last row becomes blank: its character byte only, as the policy is `keep` (R141 (b), R144). -/
def blankCell (c : Nat) (s : State) : Run State :=
  (memWrite (cellAddr (offsetOf c Config.lastRow)) Config.blankChar s).andThen fun s' =>
    match Config.scrollAttrPolicy with
    | .keep => .next s'
    | .resetToDefault => memWrite (attrAddr (offsetOf c Config.lastRow)) Config.defaultAttr s'

/-- The new last row becomes blank, columns in ascending order (R141 (b)). -/
def blankLastRow (s : State) : Run State :=
  forEach blankCell (List.range Config.cols) s

/-- `Scroll(o)` (R141): the offset it returns, and the state it leaves. One row per call (R145). -/
def scroll (o : Half) (s : State) : Run (Half × State) :=
  if inGrid o.toNat then .next (o, s)
  else
    (shiftRows (enter .scCopy s)).andThen fun s1 =>
    (blankLastRow (enter .scBlank s1)).andThen fun s2 =>
    .next (BitVec.ofNat 16 (o.toNat - Config.cols), enter .exec s2)

/-- `OFF <- Scroll(OFF)` (R142, R160). -/
def scrollOff (s : State) : Run State :=
  (scroll s.off s).andThen fun p => .next (setOff p.1 p.2)

/-- `SCROLL off`: `OFF <- off; OFF <- Scroll(OFF); RESULT <- zext_32(OFF)` (R142). -/
def execScroll (off : Half) (s : State) : Run State :=
  (scrollOff (setOff off s)).andThen fun s' => .next (complete (setResult (s'.off.setWidth 32) s'))

end Sys2Proof.Machine
end

