-- ==== Sys2Proof/Machine/CharWrite.lean ====
section
/-! DEFINITION. The character path, PUTC, PUTC_AT and CLEAR (43_character_write). -/

namespace Sys2Proof.Machine

/-- Both bytes of cell `o`, character then attribute (R42, R160). -/
def writeCell (o : Nat) (ch attr : Byte) (s : State) : Run State :=
  (memWrite (cellAddr o) ch s).andThen fun s' => memWrite (attrAddr o) attr s'

/-- The first step of R160: a newline moves `OFF` to the end of its row and writes no cell; any other character is drawn at
`OFF` (R168). -/
def drawChar (ch attr : Byte) (s : State) : Run State :=
  if ch = Config.newlineChar then .next (setOff (BitVec.ofNat 16 (lineEnd s.off.toNat)) s)
  else writeCell s.off.toNat ch attr s

/-- `OFF <- OFF + 1` (R160). -/
def advance (s : State) : State := setOff (BitVec.ofNat 16 (s.off.toNat + 1)) s

/-- `PutCharAt(o, ch, attr)` (R160): draw, advance, scroll, write the cursor, in this order (R164). -/
def putCharAt (o : Half) (ch attr : Byte) (s : State) : Run State :=
  (drawChar ch attr (setOff o s)).andThen fun s1 =>
  (scrollOff (advance s1)).andThen fun s2 =>
  (cursorWrite s2.off s2).andThen fun s3 =>
  .next (setResult (s3.off.setWidth 32) s3)

/-- `PUTC ch, attr` (R161): at the cursor; OUT_OF_GRID when the cursor is outside the grid (R203). -/
def execPutc (ch attr : Byte) (s : State) : Run State :=
  (cursorRead s).andThen fun p =>
    if inGrid p.1.toNat then (putCharAt p.1 ch attr p.2).andThen fun s' => .next (complete s')
    else .next (raiseFault .outOfGrid p.1 (encode (.putc ch attr)) p.2)

/-- `PUTC_AT ch, attr, col, row` (R162): at a coordinate; COORD_RANGE when it is outside the grid (R202). -/
def execPutcAt (ch attr : Byte) (col row : Nat) (s : State) : Run State :=
  if coordInGrid col row then
    (putCharAt (BitVec.ofNat 16 (offsetOf col row)) ch attr s).andThen fun s' => .next (complete s')
  else .next (raiseFault .coordRange 0 (encode (.putcAt ch attr col row)) s)

/-- Cell `o` becomes blank with the default attribute (R167). -/
def clearCell (o : Nat) (s : State) : Run State := writeCell o Config.blankChar Config.defaultAttr s

/-- `CLEAR` (R167): every cell blank, in ascending order, then the cursor at (0, 0); `RESULT` unchanged. -/
def execClear (s : State) : Run State :=
  (forEach clearCell (List.range Config.cells) (enter .clFill s)).andThen fun s1 =>
  (cursorWrite (BitVec.ofNat 16 (offsetOf 0 0)) s1).andThen fun s2 =>
  .next (complete s2)

end Sys2Proof.Machine
end

