-- ==== Sys2Proof/Machine/Cursor.lean ====
section
/-! DEFINITION. GET_CURSOR and SET_CURSOR (41_cursor_protocol). -/

namespace Sys2Proof.Machine

/-- `GET_CURSOR`: `RESULT <- zext_32(CursorRead())` (R123). -/
def execGetCursor (s : State) : Run State :=
  (cursorRead s).andThen fun p => .next (complete (setResult (p.1.setWidth 32) p.2))

/-- `SET_CURSOR off`: `CursorWrite(off)`; `RESULT` unchanged (R125). -/
def execSetCursor (off : Half) (s : State) : Run State :=
  (cursorWrite off s).andThen fun s' => .next (complete s')

end Sys2Proof.Machine
end

