-- ==== Sys2Proof/Machine/Dispatch.lean ====
section
/-! DEFINITION. Every command's meaning, one arm per constructor of Instr. -/

namespace Sys2Proof.Machine

/-- What a command does to the block that has accepted it (R79: "the command of that row executes"). -/
def exec (i : Instr) (s : State) : Host.Outcome State Fault Refusal :=
  match i with
  | .offsetOf col row => Sys2Proof.Machine.execOffsetOf col row s
  | .rowOf off => Sys2Proof.Machine.execRowOf off s
  | .cellAddr off => Sys2Proof.Machine.execCellAddr off s
  | .getCursor => Sys2Proof.Machine.execGetCursor s
  | .setCursor off => Sys2Proof.Machine.execSetCursor off s
  | .scroll off => Sys2Proof.Machine.execScroll off s
  | .putc ch attr => Sys2Proof.Machine.execPutc ch attr s
  | .putcAt ch attr col row => Sys2Proof.Machine.execPutcAt ch attr col row s
  | .clear => Sys2Proof.Machine.execClear s

end Sys2Proof.Machine
end

