-- ==== Sys2Proof/Machine/HostPort.lean ====
section
/-! DEFINITION. The host interface: accepting a word, resetting, and reading the registers (R31, R70, R206, R230). -/

namespace Sys2Proof.Machine

/-- The registers the host may read (R31). -/
inductive HostReg where
  | result
  | status
  | faultCmd
  | faultVal
deriving DecidableEq, Repr

/-- The host may read the registers: no command is executing (R31: "`FSM` is `IDLE` or `HALTED`"). -/
def hostMayRead (s : State) : Bool := !s.fsm.busy

/-- What the host reads of a register, zero-extended to 32 bits, and nothing while a command executes (R31). A read changes
no state: it is a view. -/
def hostRead (r : HostReg) (s : State) : Option Word :=
  if hostMayRead s then
    some (match r with
      | .result => s.result
      | .status => s.statusView
      | .faultCmd => s.faultCmd
      | .faultVal => s.faultVal.setWidth 32)
  else none

/-- How the block meets the host's next action. -/
inductive Meeting where
  /-- The state after it; no command was accepted. -/
  | settled (s : State)
  /-- The block is stuck. -/
  | stuck (f : Fault)
  /-- The word `w` was accepted: the state in which its command begins. -/
  | accepted (w : Word) (s : State)
deriving DecidableEq, Repr

/-- The block accepts a word: it executes (R27, R56). -/
def acceptWord (s : State) : State := enter .exec s

/-- A word is submitted: taken in `IDLE` only (D3, R206). -/
def meetWord (w : Word) (s : State) : Meeting :=
  match s.fsm with
  | .idle => .accepted w (acceptWord s)
  | .halted => .stuck .halted
  | .exec | .g1 | .g2 | .g3 | .g4 | .s1 | .s2 | .s3 | .s4 | .scCopy | .scBlank | .clFill => .stuck .midCommand

/-- Nothing is submitted: "between commands it is `IDLE` and holds its registers" (R215). -/
def meetNothing (s : State) : Meeting :=
  match s.fsm with
  | .idle => .settled s
  | .halted => .stuck .halted
  | .exec | .g1 | .g2 | .g3 | .g4 | .s1 | .s2 | .s3 | .s4 | .scCopy | .scBlank | .clFill => .stuck .midCommand

/-- The block meets the host's next action (log 4, log 8). -/
def meetHost (s : State) : Meeting :=
  match s.host with
  | [] => meetNothing s
  | .reset :: rest => .settled (blockReset { s with host := rest })
  | .submit w :: rest => meetWord w { s with host := rest }

/-- A word that is no command raises ILLEGAL_COMMAND, before any transaction (R79, R201). -/
def raiseIllegal (w : Word) (s : State) : State := raiseFault .illegalCommand 0 w s

/-- The host will submit `w` next. -/
def submitNext (w : Word) (s : State) : State := { s with host := .submit w :: s.host }

/-- A word as the opcode table numbers it (R70: 32 bits). -/
def tableWord (nbits w : Nat) : Word := BitVec.ofNat 32 (w % 2 ^ nbits)

end Sys2Proof.Machine
end

