-- ==== Sys2Proof/Machine/Step.lean ====
section
/-! DEFINITION. One step: the block meets the host's next action and, if that is a command, executes it whole (D2, R56). -/

namespace Sys2Proof.Machine

/-- One step (R22, R27, R79). -/
def step (s : State) : Host.Outcome State Fault Refusal :=
  match meetHost s with
  | .settled s' => .next s'
  | .stuck f => .fault f
  | .accepted w s' =>
    match decode w with
    | .ok i => exec i s'
    | .error _ => .next (raiseIllegal w s')

/-- `s` with the host about to submit the table word: the next step takes it (log 4). -/
def State.withFetchWord (s : State) (nbits w : Nat) : State := submitNext (tableWord nbits w) s

end Sys2Proof.Machine
end

