-- ==== Sys2Proof/Machine/Assembler.lean ====
section
/-! DEFINITION. The host's assembler: its lines (R83), its pseudo-instructions (R84, R85), and how a line is read from
text (R83; log 16). It is outside the block: it makes the command words the host submits. -/

namespace Sys2Proof.Machine

/-- One line of assembler: a command (R83) or a pseudo-instruction (R84). Operands are as written, before any check; an
omitted `attr` is `none`. -/
inductive AsmLine where
  | offsetOf (col row : Nat)
  | rowOf (off : Nat)
  | cellAddr (off : Nat)
  | getCursor
  | setCursor (off : Nat)
  | scroll (off : Nat)
  | putc (ch : Nat) (attr : Option Nat)
  | putcAt (ch : Nat) (attr : Option Nat) (col row : Nat)
  | clear
  | print (text : List Byte)
  | printAt (text : List Byte) (col row : Int)
  | printLine (text : Option (List Byte))
deriving DecidableEq, Repr

/-! ### From a line to commands -/

/-- `i`, if its operands fit (R83: "refuses an operand that does not fit its field"). -/
def ifFits (fits : Bool) (i : Instr) : Option (List Instr) := if fits then some [i] else none

/-- `off` fits 16 bits (R83). -/
def offFits (off : Nat) : Bool := decide (off ≤ 0xFFFF)

/-- `ch` or `attr` fits 8 bits (R83). -/
def byteFits (b : Nat) : Bool := decide (b ≤ 0xFF)

/-- "An omitted `attr` in `putc` or `putc_at` means `DEFAULT_ATTR`" (R83). -/
def attrOrDefault (attr : Option Nat) : Nat := attr.getD Config.defaultAttr.toNat

/-- The text of a pseudo-instruction stops before its first 0x00 byte (R85). -/
def cText (text : List Byte) : List Byte := text.takeWhile (fun b => b != 0)

/-- `print "t"`: one `putc` a character, with the default attribute (R84). -/
def expandPrint (text : List Byte) : List Instr := (cText text).map fun b => .putc b Config.defaultAttr

/-- `print_at "t", col, row` (R84): both coordinates non-negative: the cursor first, also for an empty text, and refused
outside the grid; else as `print "t"`. -/
def expandPrintAt (text : List Byte) (col row : Int) : Option (List Instr) :=
  if 0 ≤ col ∧ 0 ≤ row then
    if coordInGrid col.toNat row.toNat then
      some (.setCursor (BitVec.ofNat 16 (offsetOf col.toNat row.toNat)) :: expandPrint text)
    else none
  else some (expandPrint text)

/-- `print_line "t"`, and `print_line` without a text (R84): the text, if given, then a newline. -/
def expandPrintLine (text : Option (List Byte)) : List Instr :=
  expandPrint (text.getD []) ++ [.putc Config.newlineChar Config.defaultAttr]

/-- The commands of a line, or none where the assembler refuses it (R83, R84). -/
def AsmLine.expand : AsmLine → Option (List Instr)
  | .offsetOf col row => ifFits (colFits col && rowFits row) (.offsetOf col row)
  | .rowOf off => ifFits (offFits off) (.rowOf (BitVec.ofNat 16 off))
  | .cellAddr off => ifFits (offFits off) (.cellAddr (BitVec.ofNat 16 off))
  | .getCursor => some [.getCursor]
  | .setCursor off => ifFits (offFits off) (.setCursor (BitVec.ofNat 16 off))
  | .scroll off => ifFits (offFits off) (.scroll (BitVec.ofNat 16 off))
  | .putc ch attr =>
    ifFits (byteFits ch && byteFits (attrOrDefault attr))
      (.putc (BitVec.ofNat 8 ch) (BitVec.ofNat 8 (attrOrDefault attr)))
  | .putcAt ch attr col row =>
    ifFits (byteFits ch && byteFits (attrOrDefault attr) && colFits col && rowFits row)
      (.putcAt (BitVec.ofNat 8 ch) (BitVec.ofNat 8 (attrOrDefault attr)) col row)
  | .clear => some [.clear]
  | .print text => some (expandPrint text)
  | .printAt text col row => expandPrintAt text col row
  | .printLine text => some (expandPrintLine text)

/-- The command words of a line (R83). -/
def AsmLine.assemble (l : AsmLine) : Option (List Word) := l.expand.map (List.map encode)

/-! ### From text to a line -/

/-- An operand as written. -/
inductive Operand where
  /-- An unsigned decimal or `0x` hexadecimal number. -/
  | num (n : Nat)
  /-- A number after a minus sign: only a coordinate of `print_at` may be negative (R84). -/
  | neg (n : Nat)
  /-- A character literal, by its ASCII code. -/
  | char (code : Nat)
  /-- A text literal. -/
  | text (t : List Byte)
deriving DecidableEq, Repr

/-- Blanks between tokens (log 16). -/
def skipBlanks (cs : List Char) : List Char := cs.dropWhile (fun c => c == ' ' || c == '\t')

/-- A character of a mnemonic or a number. -/
def isWordChar (c : Char) : Bool := c.isAlphanum || c == '_'

/-- The value of a digit, decimal or hexadecimal. -/
def digitValue (c : Char) : Option Nat :=
  if c.isDigit then some (c.toNat - 0x30)
  else if 'a' ≤ c && c ≤ 'f' then some (c.toNat - 0x57)
  else if 'A' ≤ c && c ≤ 'F' then some (c.toNat - 0x37)
  else none

/-- The number `cs` writes in `base`, after `acc`. -/
def readDigits (base : Nat) : Nat → List Char → Option Nat
  | acc, [] => some acc
  | acc, c :: cs =>
    match digitValue c with
    | some d => if d < base then readDigits base (acc * base + d) cs else none
    | none => none

/-- An unsigned decimal or `0x` hexadecimal number (R83). -/
def readNumber : List Char → Option Nat
  | [] => none
  | '0' :: 'x' :: c :: cs => readDigits 16 0 (c :: cs)
  | c :: cs => readDigits 10 0 (c :: cs)

/-- The rest of a text literal: its bytes, and what follows its closing quote. `\n` is 0x0A, as in a character literal
(log 16). -/
def readText : List Char → Option (List Byte × List Char)
  | [] => none
  | '\\' :: 'n' :: cs => (readText cs).map fun p => (0x0A :: p.1, p.2)
  | c :: cs =>
    if c.toNat = 0x22 then some ([], cs)
    else if c.toNat < 128 then (readText cs).map fun p => (BitVec.ofNat 8 c.toNat :: p.1, p.2)
    else none

/-- The rest of a character literal `'c'` (R83): "its ASCII code (`'\n'` is 0x0A)". -/
def readCharLiteral : List Char → Option (Operand × List Char)
  | '\\' :: 'n' :: q :: cs => if q.toNat = 0x27 then some (.char 0x0A, cs) else none
  | c :: q :: cs => if q.toNat = 0x27 && decide (c.toNat < 128) then some (.char c.toNat, cs) else none
  | _ => none

/-- One operand, and what follows it. -/
def readOperand (cs : List Char) : Option (Operand × List Char) :=
  match cs with
  | [] => none
  | c :: rest =>
    if c.toNat = 0x27 then readCharLiteral rest
    else if c.toNat = 0x22 then (readText rest).map fun p => (.text p.1, p.2)
    else if c = '-' then
      (readNumber (rest.takeWhile isWordChar)).map fun n => (.neg n, rest.dropWhile isWordChar)
    else (readNumber (cs.takeWhile isWordChar)).map fun n => (.num n, cs.dropWhile isWordChar)

/-- Operands separated by commas. The first argument bounds their number. -/
def readOperands : Nat → List Char → Option (List Operand)
  | 0, _ => none
  | k + 1, cs =>
    match readOperand (skipBlanks cs) with
    | none => none
    | some (o, rest) =>
      match skipBlanks rest with
      | [] => some [o]
      | c :: more => if c = ',' then (readOperands k more).map (o :: ·) else none

/-- The operands of a line: none, or a list separated by commas. -/
def readOperandList (cs : List Char) : Option (List Operand) :=
  if skipBlanks cs = [] then some [] else readOperands (cs.length + 1) cs

/-- A character operand: a number or a character literal (R83). -/
def Operand.asChar : Operand → Option Nat
  | .num n => some n
  | .char c => some c
  | .neg _ => none
  | .text _ => none

/-- A coordinate of `print_at`: any whole number (R84). -/
def Operand.asCoordinate : Operand → Option Int
  | .num n => some n
  | .neg n => some (-n)
  | .char _ => none
  | .text _ => none

/-- The line a mnemonic and its operands make (R83, R84). -/
def makeLine (mnemonic : String) (os : List Operand) : Option AsmLine :=
  match mnemonic, os with
  | "offset_of", [.num col, .num row] => some (.offsetOf col row)
  | "row_of", [.num off] => some (.rowOf off)
  | "cell_addr", [.num off] => some (.cellAddr off)
  | "get_cursor", [] => some .getCursor
  | "set_cursor", [.num off] => some (.setCursor off)
  | "scroll", [.num off] => some (.scroll off)
  | "putc", [c] => c.asChar.map fun ch => .putc ch none
  | "putc", [c, .num attr] => c.asChar.map fun ch => .putc ch (some attr)
  | "putc_at", [c, .num col, .num row] => c.asChar.map fun ch => .putcAt ch none col row
  | "putc_at", [c, .num attr, .num col, .num row] => c.asChar.map fun ch => .putcAt ch (some attr) col row
  | "clear", [] => some .clear
  | "print", [.text t] => some (.print t)
  | "print_at", [.text t, x, y] =>
    match x.asCoordinate, y.asCoordinate with
    | some col, some row => some (.printAt t col row)
    | _, _ => none
  | "print_line", [.text t] => some (.printLine (some t))
  | "print_line", [] => some (.printLine none)
  | _, _ => none

/-- A line of assembler text. -/
def readLine (text : String) : Option AsmLine :=
  match readOperandList ((skipBlanks text.toList).dropWhile isWordChar) with
  | some os => makeLine (String.ofList ((skipBlanks text.toList).takeWhile isWordChar)) os
  | none => none

/-- The command words of a line of assembler text (R83, R84). -/
def assembleText (text : String) : Option (List Word) :=
  match readLine text with
  | some l => l.assemble
  | none => none

end Sys2Proof.Machine
end

