-- ==== Sys2Proof/Safety.lean ====
section
/-! DEFINITION. The terms claims are stated in: transaction sequences, what one state keeps of another, and the states the
block can be in between commands. -/

namespace Sys2Proof.Machine

/-! ### Transactions, in the order they are performed (R55) -/

/-- `t` follows `s` by exactly the transactions `txns`, oldest first. -/
def Performed (txns : List Txn) (s t : State) : Prop := t.busLog = txns.reverse ++ s.busLog

/-- The four transactions of `CursorRead()` when the cursor is `c` (R122). -/
def cursorReadTxns (c : Half) : List Txn :=
  [.portWrite Config.crtcIndexPort Config.curHiIndex, .portRead Config.crtcDataPort (hiByte c),
   .portWrite Config.crtcIndexPort Config.curLoIndex, .portRead Config.crtcDataPort (loByte c)]

/-- The four transactions of `CursorWrite(v)` (R124). -/
def cursorWriteTxns (v : Half) : List Txn :=
  [.portWrite Config.crtcIndexPort Config.curHiIndex, .portWrite Config.crtcDataPort (hiByte v),
   .portWrite Config.crtcIndexPort Config.curLoIndex, .portWrite Config.crtcDataPort (loByte v)]

/-- The transactions that move the bytes `bs` of row `r` one row up, `old` being the buffer (R141 (a)). -/
def copyTxns (old : Nat → Byte) (r : Nat) (bs : List Nat) : List Txn :=
  bs.flatMap fun b =>
    [.memRead (rowByteAddr r b) (old (rowByteAddr r b)), .memWrite (rowByteAddr (r - 1) b) (old (rowByteAddr r b))]

/-- The transactions of the row shift, `old` being the buffer before it (R141 (a)). -/
def shiftTxns (old : Nat → Byte) (rs : List Nat) : List Txn :=
  rs.flatMap fun r => copyTxns old r (List.range Config.rowBytes)

/-- The transactions that blank the cells of the columns `cs` of the last row (R141 (b)). -/
def blankTxns (cs : List Nat) : List Txn :=
  cs.map fun c => .memWrite (cellAddr (offsetOf c Config.lastRow)) Config.blankChar

/-- The transactions of a scroll, `old` being the buffer before it (R141). -/
def scrollTxns (old : Nat → Byte) : List Txn :=
  shiftTxns old (List.range' 1 Config.lastRow) ++ blankTxns (List.range Config.cols)

/-- The transactions that write both bytes of cell `o` (R160). -/
def cellTxns (o : Nat) (ch attr : Byte) : List Txn := [.memWrite (cellAddr o) ch, .memWrite (attrAddr o) attr]

/-- The transactions of the fill of CLEAR on the cells `os` (R167). -/
def fillTxns (os : List Nat) : List Txn :=
  os.flatMap fun o => cellTxns o Config.blankChar Config.defaultAttr

/-- The port transactions among `txns`, oldest first, are whole cursor sequences, with no transaction between the four of a
sequence: select high, transfer high, select low, transfer low, the transfers all reads or all writes (R126). -/
def wholeSequences : List Txn → Bool
  | [] => true
  | .memRead _ _ :: rest => wholeSequences rest
  | .memWrite _ _ :: rest => wholeSequences rest
  | .portWrite p1 h :: .portRead p2 _ :: .portWrite p3 l :: .portRead p4 _ :: rest =>
    p1 == Config.crtcIndexPort && h == Config.curHiIndex && p2 == Config.crtcDataPort &&
    p3 == Config.crtcIndexPort && l == Config.curLoIndex && p4 == Config.crtcDataPort && wholeSequences rest
  | .portWrite p1 h :: .portWrite p2 _ :: .portWrite p3 l :: .portWrite p4 _ :: rest =>
    p1 == Config.crtcIndexPort && h == Config.curHiIndex && p2 == Config.crtcDataPort &&
    p3 == Config.crtcIndexPort && l == Config.curLoIndex && p4 == Config.crtcDataPort && wholeSequences rest
  | _ => false

/-- What a command costs in transactions (R242). -/
structure BusCost where
  portWrites : Nat
  portReads : Nat
  memReads : Nat
  memWrites : Nat
deriving DecidableEq, Repr

/-- The cost with one more transaction. -/
def BusCost.count (c : BusCost) : Txn → BusCost
  | .portWrite _ _ => { c with portWrites := c.portWrites + 1 }
  | .portRead _ _ => { c with portReads := c.portReads + 1 }
  | .memRead _ _ => { c with memReads := c.memReads + 1 }
  | .memWrite _ _ => { c with memWrites := c.memWrites + 1 }

/-- How many transactions of each kind `txns` holds. -/
def busCost (txns : List Txn) : BusCost := txns.foldl BusCost.count ⟨0, 0, 0, 0⟩

/-- `t` follows `s` by transactions of the cost `c`. -/
def Costs (c : BusCost) (s t : State) : Prop := ∃ txns, Performed txns s t ∧ busCost txns = c

/-- Every memory transaction is inside the video buffer (R40); every port transaction is one that R50 leaves the block: a
select of 0x0E or 0x0F, or a transfer through the data port. -/
def Txn.lawful : Txn → Bool
  | .memRead a _ | .memWrite a _ => inBuffer a
  | .portWrite p v =>
    (p == Config.crtcIndexPort && (v == Config.curHiIndex || v == Config.curLoIndex)) || p == Config.crtcDataPort
  | .portRead p _ => p == Config.crtcDataPort

/-! ### Words and commands -/

/-- Every word that the mask and match of a row of R78 select is the command `i` makes of it. -/
def DecodesAs (mask matchWord : Word) (i : Word → Instr) : Prop := ∀ w, w &&& mask = matchWord → decode w = .ok (i w)

/-- The operands of `i` are the fields of `w` that R77 names. -/
def OperandsFrom (w : Word) : Instr → Prop
  | .offsetOf col row => row = (w.extractLsb' 23 5).toNat ∧ col = (w.extractLsb' 16 7).toNat
  | .rowOf off => off = w.extractLsb' 0 16
  | .cellAddr off => off = w.extractLsb' 0 16
  | .getCursor => True
  | .setCursor off => off = w.extractLsb' 0 16
  | .scroll off => off = w.extractLsb' 0 16
  | .putc ch attr => attr = w.extractLsb' 8 8 ∧ ch = w.extractLsb' 0 8
  | .putcAt ch attr col row =>
    row = (w.extractLsb' 23 5).toNat ∧ col = (w.extractLsb' 16 7).toNat ∧ attr = w.extractLsb' 8 8 ∧
      ch = w.extractLsb' 0 8
  | .clear => True

/-- The block is idle and the host is about to submit `w`. -/
def Submits (w : Word) (rest : List HostAction) (s : State) : Prop := s.fsm = .idle ∧ s.host = .submit w :: rest

/-! ### What a command keeps -/

/-- `STATUS`, `FAULT_CMD` and `FAULT_VAL` are as before (R23 to R25). -/
def SameFaultRegs (s t : State) : Prop :=
  t.status = s.status ∧ t.faultCmd = s.faultCmd ∧ t.faultVal = s.faultVal

/-- The adapter's registers are as before (R28). -/
def SameAdapter (s t : State) : Prop :=
  t.crtcIndex = s.crtcIndex ∧ t.curHi = s.curHi ∧ t.curLo = s.curLo

/-- Every byte of memory reads as before. -/
def SameBuffer (s t : State) : Prop := ∀ a, Memory.read t.vram a = Memory.read s.vram a

/-- Every byte of memory outside the addresses of `stored` reads as before. -/
def SameBufferBut (stored : Nat → Prop) (s t : State) : Prop :=
  ∀ a, ¬ stored a → Memory.read t.vram a = Memory.read s.vram a

/-- The model's own fields are as before: no host action is used up, no unspecified value is drawn. -/
def SameHostSide (s t : State) : Prop := t.host = s.host ∧ t.draws = s.draws

/-! ### The buffer and the offset after the shared operations -/

/-- The byte at `a` after a scroll, `old` being the buffer before it (R147). -/
def scrolledByte (old : Nat → Byte) (a : Nat) : Byte :=
  if Config.vbase ≤ a ∧ a < Config.vbase + Config.rowBytes * Config.lastRow then old (a + Config.rowBytes)
  else if Config.vbase + Config.rowBytes * Config.lastRow ≤ a ∧ a < Config.vbase + Config.vramBytes ∧
      (a - Config.vbase) % 2 = 0 then Config.blankChar
  else old a

/-- Where a character at `o` leaves the offset before the scroll (R160). -/
def advanced (o : Nat) (ch : Byte) : Nat :=
  if ch = Config.newlineChar then lineEnd o + 1 else o + 1

/-- A character at `o` scrolls (R166). -/
def charScrolls (o : Nat) (ch : Byte) : Bool := !inGrid (advanced o ch)

/-- Where a character at `o` leaves the cursor (R160, R141). -/
def charOffset (o : Nat) (ch : Byte) : Nat :=
  if charScrolls o ch then advanced o ch - Config.cols else advanced o ch

/-- The byte at `a` once the character is drawn at `o`, before any scroll (R160, R168). -/
def drawnByte (old : Nat → Byte) (o : Nat) (ch attr : Byte) (a : Nat) : Byte :=
  if ch = Config.newlineChar then old a
  else if a = cellAddr o then ch
  else if a = attrAddr o then attr
  else old a

/-- The byte at `a` after a character at `o` (R160). -/
def charByte (old : Nat → Byte) (o : Nat) (ch attr : Byte) (a : Nat) : Byte :=
  if charScrolls o ch then scrolledByte (drawnByte old o ch attr) a else drawnByte old o ch attr a

/-- The transactions of a character at `o` (R160, R164): draw, scroll, cursor write. -/
def charTxns (old : Nat → Byte) (o : Nat) (ch attr : Byte) : List Txn :=
  (if ch = Config.newlineChar then [] else cellTxns o ch attr) ++
  (if charScrolls o ch then scrollTxns (drawnByte old o ch attr) else []) ++
  cursorWriteTxns (BitVec.ofNat 16 (charOffset o ch))

/-- The byte at `a` after CLEAR (R167). -/
def clearedByte (old : Nat → Byte) (a : Nat) : Byte :=
  if inBuffer a then (if (a - Config.vbase) % 2 = 0 then Config.blankChar else Config.defaultAttr) else old a

/-! ### Safe states -/

/-- No fault has been raised (R23, R32): the fault registers are at their reset values. -/
def NoFault (s : State) : Prop := s.status = 0 ∧ s.faultCmd = 0 ∧ s.faultVal = 0

/-- The fault registers tell of a fault that the command in `FAULT_CMD` raises (R200 to R205). -/
def FaultRecorded (s : State) : Prop :=
  (s.status = faultStatus .illegalCommand ∧ s.faultVal = 0 ∧ ∃ e, decode s.faultCmd = .error e) ∨
  (s.status = faultStatus .coordRange ∧ s.faultVal = 0 ∧
    ∃ ch attr col row, decode s.faultCmd = .ok (.putcAt ch attr col row) ∧ coordInGrid col row = false) ∨
  (s.status = faultStatus .outOfGrid ∧ s.faultVal = s.cursor ∧ inGrid s.faultVal.toNat = false ∧
    s.crtcIndex = Config.curLoIndex ∧ ∃ ch attr, decode s.faultCmd = .ok (.putc ch attr))

/-- What holds of the block between commands: `IDLE` with no fault recorded, or `HALTED` with the fault recorded (R27, R204,
R206). -/
def SequencerInv (s : State) : Prop :=
  (s.fsm = .idle ∧ NoFault s) ∨ (s.fsm = .halted ∧ FaultRecorded s)

/-- The video buffer is in its canonical form (R30; log 3). -/
def BufferInv (s : State) : Prop := Memory.wf s.vram

/-- Every transaction ever performed is one the spec allows the block (R40, R50). -/
def BusInv (s : State) : Prop := ∀ t ∈ s.busLog, t.lawful = true

/-- The cursor is on the screen: the host has met the boot requirement of R233 and kept it. -/
def CursorOnScreen (s : State) : Prop := inGrid s.cursor.toNat = true

end Sys2Proof.Machine
end

