-- ==== Sys2Proof/Certificates/Slice0/Obligations.lean ====
section
/-! DEFINITION. The statements about this machine, for the provers. Each names the rules of spec/ it formalises. -/

open Sys2Proof Sys2Proof.Machine

/-! ### Encoding -/

/-- Decode and encode agree on every well-formed command: no operand bit is lost (R72 to R79). -/
def Obligations.DecodeOfEncodeIsTheCommand : Prop :=
  ∀ i : Instr, i.WellFormed = true → decode (encode i) = .ok i

/-- Encode and decode agree on every legal word: the word in `FAULT_CMD` is the word submitted (R24, R77; log 9). -/
def Obligations.EncodeOfDecodeIsTheWord : Prop :=
  ∀ (w : Word) (i : Instr), decode w = .ok i → encode i = w ∧ i.WellFormed = true

/-- R79: a word that some row selects runs that row's command with the operands of R77, and that row is the only one; any
other raises ILLEGAL_COMMAND, with no transaction and no other register written. -/
def Obligations.SubmittedWordRunsItsRowOrIsIllegal : Prop :=
  ∀ (s : State) (w : Word) (rest : List HostAction), Submits w rest s →
    (∀ r ∈ opcodeTable, r.selects w = true →
      ∃ i, decode w = .ok i ∧ i.opcodeRow = r ∧ OperandsFrom w i ∧
        step s = exec i { s with host := rest, fsm := .exec }) ∧
    ((∀ r ∈ opcodeTable, r.selects w = false) →
      step s = .next { s with
        host := rest, fsm := .halted, status := 0x12, faultCmd := w, faultVal := 0 })

/-- R78: no word selects two rows. -/
def Obligations.OpcodeRowsAreDisjoint : Prop :=
  ∀ (w : Word) (r q : OpcodeRow), r ∈ opcodeTable → q ∈ opcodeTable →
    r.selects w = true → q.selects w = true → r = q

/-- R80: a word of a reserved opcode is illegal whatever its other bits, the zero word among them, and submitting it
faults. -/
def Obligations.ReservedOpcodesAreIllegal : Prop :=
  ∀ w : Word, ((w.extractLsb' 28 4).toNat = 0x0 ∨ 0xA ≤ (w.extractLsb' 28 4).toNat) →
    decode w = .error .reservedOpcode ∧
    ∀ (s : State) (rest : List HostAction), Submits w rest s →
      ∃ t, step s = .next t ∧ t.fsm = .halted ∧ t.status = faultStatus .illegalCommand ∧ t.faultCmd = w

/-- R81: a word of a defined opcode with a non-zero reserved field is illegal. -/
def Obligations.ReservedFieldsMustBeZero : Prop :=
  ∀ w : Word,
    ((w.extractLsb' 28 4).toNat = 0x1 → w.extractLsb' 0 16 ≠ 0 → decode w = .error .reservedField) ∧
    ((w.extractLsb' 28 4).toNat ∈ [0x2, 0x3, 0x5, 0x6, 0x7] → w.extractLsb' 16 12 ≠ 0 →
      decode w = .error .reservedField) ∧
    ((w.extractLsb' 28 4).toNat ∈ [0x4, 0x9] → w.extractLsb' 0 28 ≠ 0 → decode w = .error .reservedField)

/-- Words the spec writes out (R102, R104, R107, R123, R125, R142, R161, R162, R167, R80, 95_test_vectors) stand for the
commands it says. -/
def Obligations.SpecWordsDecode : Prop :=
  decode 0x10810000 = .ok (.offsetOf 1 1) ∧ decode 0x200007CF = .ok (.rowOf 1999) ∧
  decode 0x30000051 = .ok (.cellAddr 81) ∧ decode 0x40000000 = .ok .getCursor ∧
  decode 0x50000780 = .ok (.setCursor 1920) ∧ decode 0x600007D0 = .ok (.scroll 2000) ∧
  decode 0x70000241 = .ok (.putc 0x41 0x02) ∧ decode 0x8C4F025A = .ok (.putcAt 0x5A 0x02 79 24) ∧
  decode 0x90000000 = .ok .clear ∧ decode 0x00000000 = .error .reservedOpcode ∧
  decode 0x10000001 = .error .reservedField

/-! ### The host and the sequencer -/

/-- A step runs the decoded command: the word is taken off the host's queue, the sequencer leaves `IDLE`, and the command
runs (R27, R79). -/
def Obligations.StepRunsTheDecodedCommand : Prop :=
  ∀ (s : State) (w : Word) (rest : List HostAction) (i : Instr), Submits w rest s → decode w = .ok i →
    step s = exec i { s with host := rest, fsm := .exec }

/-- R206: in `HALTED` a submitted word is not taken, no step leads on without a reset, and the host may read every
register. -/
def Obligations.HaltedTakesNoCommand : Prop :=
  ∀ s : State, s.fsm = .halted →
    (∀ w rest, s.host = .submit w :: rest → step s = .fault .halted) ∧
    (∀ t, step s = .next t → ∃ rest, s.host = .reset :: rest) ∧
    (∀ r, (hostRead r s).isSome = true)

/-- R230, R231: reset clears the block's registers and makes it `IDLE`, from every state; it touches neither the adapter nor
the buffer and performs no transaction; after it a submitted word is accepted; it is the only way out of `HALTED`. -/
def Obligations.ResetClearsTheBlockOnly : Prop :=
  (∀ (s : State) (rest : List HostAction), s.host = .reset :: rest →
    ∃ t, step s = .next t ∧ t.result = 0 ∧ t.status = 0 ∧ t.faultCmd = 0 ∧ t.faultVal = 0 ∧ t.fsm = .idle ∧
      SameAdapter s t ∧ t.vram = s.vram ∧ t.busLog = s.busLog ∧ t.host = rest ∧
      ∀ w more, t.host = .submit w :: more → ∃ u, step t = .next u) ∧
  (∀ s t : State, s.fsm = .halted → step s = .next t → t.fsm = .idle ∧ ∃ rest, s.host = .reset :: rest)

/-- With nothing submitted an idle block holds everything (R215). The model's choice of what such a step is: log 4. -/
def Obligations.IdleBlockHoldsItsState : Prop :=
  ∀ s : State, s.fsm = .idle → s.host = [] → step s = .next s

/-- The reset values the spec gives (R21, R23 to R25, R27, R32), and no transaction (R231). -/
def Obligations.ResetValues : Prop :=
  State.reset.result = 0 ∧ State.reset.statusView = 0 ∧ State.reset.faultCmd = 0 ∧ State.reset.faultVal = 0 ∧
  State.reset.fsm = .idle ∧ State.reset.busLog = []

/-- R31: in `IDLE` and `HALTED` the host reads the four registers, `STATUS` as stored. The model's inference and no rule of the
spec (log 18, DEDUCED): a read gives nothing while a command executes, the 16-bit `FAULT_VAL` is read zero-extended to 32 bits,
and a read is a function of the state that returns no new state. -/
def Obligations.HostReadsTheRegisters : Prop :=
  ∀ s : State,
    ((s.fsm = .idle ∨ s.fsm = .halted) →
      hostRead .result s = some s.result ∧ hostRead .status s = some s.status ∧
      hostRead .faultCmd s = some s.faultCmd ∧ hostRead .faultVal s = some (s.faultVal.setWidth 32)) ∧
    (s.fsm ≠ .idle → s.fsm ≠ .halted → ∀ r, hostRead r s = none)

/-- R23, between commands (the states `SequencerInv` describes): reserved bits and `BUSY` read 0, `FAULT` is 1 exactly in
`HALTED`, `FCODE` is 0 when `FAULT` is 0 and a code of R200 when it is 1. -/
def Obligations.StatusFieldsBetweenCommands : Prop :=
  ∀ s : State, SequencerInv s →
    statusReservedZero s.statusView = true ∧ busyBit s.statusView = false ∧
    (faultBit s.statusView = true ↔ s.fsm = .halted) ∧
    (faultBit s.statusView = false → fcode s.statusView = 0) ∧
    (faultBit s.statusView = true → fcode s.statusView = 1 ∨ fcode s.statusView = 2 ∨ fcode s.statusView = 3)

/-! ### Invariants every step keeps -/

/-- Between commands the block is idle with no fault, or halted with the registers telling of the fault its command raised
(R23 to R25, R27, R200 to R206). -/
def Obligations.StepKeepsSequencerConsistent : Prop :=
  ∀ s t : State, SequencerInv s → step s = .next t → SequencerInv t

/-- The buffer keeps its canonical form, with no byte outside the video buffer (R30, R40; log 3). -/
def Obligations.StepKeepsBufferCanonical : Prop :=
  ∀ s t : State, BufferInv s → step s = .next t → BufferInv t

/-- The block performs only transactions the spec allows it (R40, R50). -/
def Obligations.StepKeepsBusLawful : Prop :=
  ∀ s t : State, BusInv s → step s = .next t → BusInv t

/-- The three invariants hold after reset. -/
def Obligations.ResetMeetsTheInvariants : Prop :=
  SequencerInv State.reset ∧ BufferInv State.reset ∧ BusInv State.reset

/-- Transactions are never undone (R55, R56): a step only adds to the record, and whole cursor sequences only (R126). -/
def Obligations.StepAddsWholeSequences : Prop :=
  ∀ s t : State, step s = .next t → ∃ txns, Performed txns s t ∧ wholeSequences txns = true

/-- R203: a cursor on the screen leaves it only by a SET_CURSOR that says so. -/
def Obligations.OnlySetCursorLeavesTheScreen : Prop :=
  ∀ s t : State, CursorOnScreen s → step s = .next t → ¬ CursorOnScreen t →
    ∃ w rest off, s.host = .submit w :: rest ∧ decode w = .ok (.setCursor off) ∧ inGrid off.toNat = false ∧
      t.cursor = off

/-- Every command, in every state, with every operand, ends in a next state, `IDLE` or `HALTED`: no transaction fails (R47,
R130), no address is outside the buffer (R40), no access is one the adapter gives no meaning to (R50). -/
def Obligations.EveryCommandEnds : Prop :=
  ∀ (i : Instr) (s : State), ∃ t, exec i s = .next t ∧ (t.fsm = .idle ∨ t.fsm = .halted)

/-! ### What commands keep -/

/-- R23, R33: a command that raises no fault leaves `STATUS`, `FAULT_CMD` and `FAULT_VAL` alone; and no command touches the
model's own fields. -/
def Obligations.OnlyFaultsWriteTheFaultRegisters : Prop :=
  ∀ (i : Instr) (s t : State), exec i s = .next t →
    SameHostSide s t ∧ (t.fsm = .idle → SameFaultRegs s t)

/-- R21: SET_CURSOR, CLEAR and a command that faults leave `RESULT` unchanged. -/
def Obligations.ResultKeptBySomeCommands : Prop :=
  ∀ (i : Instr) (s t : State), exec i s = .next t →
    (t.fsm = .halted ∨ i = .clear ∨ ∃ off, i = .setCursor off) → t.result = s.result

/-- R120: OFFSET_OF, ROW_OF, CELL_ADDR and SCROLL leave the adapter's registers alone, and GET_CURSOR and a PUTC that faults
leave the cursor alone. -/
def Obligations.CursorKeptBySomeCommands : Prop :=
  ∀ (s : State),
    (∀ i t, exec i s = .next t →
      ((∃ col row, i = .offsetOf col row) ∨ (∃ off, i = .rowOf off) ∨ (∃ off, i = .cellAddr off) ∨
        ∃ off, i = .scroll off) → SameAdapter s t) ∧
    (∀ i t, exec i s = .next t → (i = .getCursor ∨ t.fsm = .halted) → t.cursor = s.cursor)

/-- Only SCROLL, PUTC, PUTC_AT and CLEAR change the buffer, and none of them when it raises a fault (R100, R123, R125,
R205). -/
def Obligations.BufferKeptBySomeCommands : Prop :=
  ∀ (i : Instr) (s t : State), exec i s = .next t →
    (t.fsm = .halted ∨ (∃ col row, i = .offsetOf col row) ∨ (∃ off, i = .rowOf off) ∨ (∃ off, i = .cellAddr off) ∨
      i = .getCursor ∨ ∃ off, i = .setCursor off) → t.vram = s.vram

/-- R26: `OFF` is dead between commands: what it holds before a command changes nothing after it but `OFF` itself. -/
def Obligations.OffBetweenCommandsIsDead : Prop :=
  ∀ (i : Instr) (s : State) (o : Half), ∃ t u, exec i s = .next t ∧ exec i { s with off := o } = .next u ∧
    { u with off := t.off } = t

/-- R239, R129: GET_CURSOR, SET_CURSOR, PUTC, CLEAR, and a PUTC_AT that raises no fault, leave the latch at 0x0F. -/
def Obligations.IndexLatchAfterCursorCommands : Prop :=
  ∀ (i : Instr) (s t : State), exec i s = .next t →
    (i = .getCursor ∨ (∃ off, i = .setCursor off) ∨ (∃ ch attr, i = .putc ch attr) ∨ i = .clear ∨
      (∃ ch attr col row, i = .putcAt ch attr col row ∧ t.fsm = .idle)) →
    t.crtcIndex = 0x0F

/-! ### The address calculator -/

/-- R102: OFFSET_OF, whole: which words it is, what it writes, that it changes nothing else, and the corner cases. -/
def Obligations.OffsetOfWritesTheOffset : Prop :=
  DecodesAs 0xF000FFFF 0x10000000 (fun w => .offsetOf (w.extractLsb' 16 7).toNat (w.extractLsb' 23 5).toNat) ∧
  (∀ (col row : Nat) (s : State), col < 128 → row < 32 →
    ∃ t, exec (.offsetOf col row) s = .next t ∧ t = { s with result := t.result, fsm := .idle } ∧
      t.result.toNat = row * 80 + col) ∧
  offsetOf 0 0 = 0 ∧ offsetOf 79 24 = 1999 ∧ offsetOf 0 25 = 2000 ∧ offsetOf 80 0 = offsetOf 0 1 ∧
  offsetOf 127 31 = 2607

/-- R104: ROW_OF, whole. -/
def Obligations.RowOfWritesTheRow : Prop :=
  DecodesAs 0xFFFF0000 0x20000000 (fun w => .rowOf (w.extractLsb' 0 16)) ∧
  (∀ (off : Half) (s : State),
    ∃ t, exec (.rowOf off) s = .next t ∧ t = { s with result := t.result, fsm := .idle } ∧
      t.result.toNat = off.toNat / 80) ∧
  rowOf 0 = 0 ∧ rowOf 79 = 0 ∧ rowOf 80 = 1 ∧ rowOf 1999 = 24 ∧ rowOf 2000 = 25 ∧ rowOf 65535 = 819

/-- R107: CELL_ADDR, whole; also for an offset outside the grid. -/
def Obligations.CellAddrWritesTheAddress : Prop :=
  DecodesAs 0xFFFF0000 0x30000000 (fun w => .cellAddr (w.extractLsb' 0 16)) ∧
  (∀ (off : Half) (s : State),
    ∃ t, exec (.cellAddr off) s = .next t ∧ t = { s with result := t.result, fsm := .idle } ∧
      t.result.toNat = 0x000B8000 + 2 * off.toNat) ∧
  cellAddr 0 = 0x000B8000 ∧ cellAddr 1999 = 0x000B8F9E ∧ cellAddr 2000 = 0x000B8FA0 ∧ cellAddr 65535 = 0x000D7FFE

/-- R105: `RowOf` undoes `OffsetOf` exactly while the column is in range. -/
def Obligations.RowOfInvertsOffsetOf : Prop :=
  ∀ col row : Nat,
    (col < 80 → rowOf (offsetOf col row) = row) ∧ (80 ≤ col → rowOf (offsetOf col row) = row + col / 80)

/-- R108: the end of a row, in the grid. -/
def Obligations.LineEndIsTheLastColumn : Prop :=
  ∀ o : Nat, lineEnd o = o / 80 * 80 + 79 ∧
    (o < 2000 → lineEnd o ≤ 1999 ∧ lineEnd o + 1 = (rowOf o + 1) * 80 ∧ rowOf (lineEnd o) = rowOf o)

/-! ### The cursor protocol -/

/-- R123: GET_CURSOR, whole: `RESULT` becomes the cursor, the latch 0x0F, the four transactions of R122 are performed, and
nothing else changes. -/
def Obligations.GetCursorReadsTheRegisters : Prop :=
  DecodesAs 0xFFFFFFFF 0x40000000 (fun _ => .getCursor) ∧
  ∀ s : State, ∃ t, exec .getCursor s = .next t ∧
    t = { s with result := t.result, crtcIndex := 0x0F, busLog := t.busLog, fsm := .idle } ∧
    t.result.toNat = s.curHi.toNat * 256 + s.curLo.toNat ∧
    Performed [.portWrite 0x03D4 0x0E, .portRead 0x03D5 s.curHi, .portWrite 0x03D4 0x0F, .portRead 0x03D5 s.curLo] s t

/-- R125: SET_CURSOR, whole: the two registers take the two bytes of any 16-bit value, the latch 0x0F, the four transactions
of R124 are performed, and nothing else changes. -/
def Obligations.SetCursorWritesTheRegisters : Prop :=
  DecodesAs 0xFFFF0000 0x50000000 (fun w => .setCursor (w.extractLsb' 0 16)) ∧
  ∀ (off : Half) (s : State), ∃ t, exec (.setCursor off) s = .next t ∧
    t = { s with
      crtcIndex := 0x0F, curHi := off.extractLsb' 8 8, curLo := off.extractLsb' 0 8, busLog := t.busLog, fsm := .idle } ∧
    Performed [.portWrite 0x03D4 0x0E, .portWrite 0x03D5 (off.extractLsb' 8 8), .portWrite 0x03D4 0x0F,
      .portWrite 0x03D5 (off.extractLsb' 0 8)] s t

/-- R128: SET_CURSOR then GET_CURSOR gives the value back, for every 16-bit value, as two words the host submits. -/
def Obligations.CursorRoundTrip : Prop :=
  ∀ (x : Half) (s : State) (rest : List HostAction), s.fsm = .idle →
    s.host = .submit (encode (.setCursor x)) :: .submit (encode .getCursor) :: rest →
    ∃ t u, step s = .next t ∧ step t = .next u ∧ u.result = x.setWidth 32 ∧ u.cursor = x ∧ u.host = rest

/-- R127, with the write half of R121: the four sub-states of a cursor write, one transaction each; between the second and
the fourth the cursor holds the new high byte with the old low byte. -/
def Obligations.CursorWriteSubStates : Prop :=
  ∀ (v : Half) (s : State), s.fsm = .s1 → ∃ a b c d,
    writeSelectHigh s = .next a ∧ a.fsm = .s2 ∧ a.cursor = s.cursor ∧ Performed [.portWrite 0x03D4 0x0E] s a ∧
    writeTransferHigh v a = .next b ∧ b.fsm = .s3 ∧ b.cursor = joinBytes (v.extractLsb' 8 8) s.curLo ∧
      Performed [.portWrite 0x03D5 (v.extractLsb' 8 8)] a b ∧
    writeSelectLow b = .next c ∧ c.fsm = .s4 ∧ c.cursor = joinBytes (v.extractLsb' 8 8) s.curLo ∧
      Performed [.portWrite 0x03D4 0x0F] b c ∧
    writeTransferLow v c = .next d ∧ d.fsm = .exec ∧ d.cursor = v ∧
      Performed [.portWrite 0x03D5 (v.extractLsb' 0 8)] c d ∧
    cursorWrite v s = .next d

/-- The read half of R121: the four sub-states of a cursor read, one transaction each, and the value of R122. -/
def Obligations.CursorReadSubStates : Prop :=
  ∀ s : State, s.fsm = .g1 → ∃ a hi b c lo d,
    readSelectHigh s = .next a ∧ a.fsm = .g2 ∧ Performed [.portWrite 0x03D4 0x0E] s a ∧
    readTransferHigh a = .next (hi, b) ∧ b.fsm = .g3 ∧ hi = s.curHi ∧ Performed [.portRead 0x03D5 s.curHi] a b ∧
    readSelectLow b = .next c ∧ c.fsm = .g4 ∧ Performed [.portWrite 0x03D4 0x0F] b c ∧
    readTransferLow c = .next (lo, d) ∧ d.fsm = .exec ∧ lo = s.curLo ∧ Performed [.portRead 0x03D5 s.curLo] c d ∧
    d.cursor = s.cursor ∧ cursorRead s = .next (joinBytes hi lo, d)

/-! ### The scrolling engine -/

/-- R142: SCROLL, whole: below 2000 a no-op that returns its operand; from 2000 on one scroll, `off - 80`, the buffer of
R147, the transactions of R141 (3840 reads, 3920 writes, in order), and nothing else changed. -/
def Obligations.ScrollCommand : Prop :=
  DecodesAs 0xFFFF0000 0x60000000 (fun w => .scroll (w.extractLsb' 0 16)) ∧
  (∀ (off : Half) (s : State), off.toNat < 2000 →
    exec (.scroll off) s = .next { s with off := off, result := off.setWidth 32, fsm := .idle }) ∧
  (∀ (off : Half) (s : State), 2000 ≤ off.toNat → ∃ t, exec (.scroll off) s = .next t ∧
    t = { s with result := t.result, off := t.off, vram := t.vram, busLog := t.busLog, fsm := .idle } ∧
    t.result.toNat = off.toNat - 80 ∧ t.off.toNat = off.toNat - 80 ∧
    (∀ a, Memory.read t.vram a = scrolledByte (Memory.read s.vram) a) ∧
    Performed (scrollTxns (Memory.read s.vram)) s t ∧ Costs ⟨0, 0, 3840, 3920⟩ s t)

/-- R147: what a scroll makes of every cell: rows move up by one, both bytes; the last row's characters become blank and its
attributes stay (R144). No byte outside the buffer changes. -/
def Obligations.ScrollMovesRowsUp : Prop :=
  ∀ (off : Half) (s : State), 2000 ≤ off.toNat → ∃ t, exec (.scroll off) s = .next t ∧
    (∀ r c, r < 24 → c < 80 →
      Memory.read t.vram (cellAddr (offsetOf c r)) = Memory.read s.vram (cellAddr (offsetOf c (r + 1))) ∧
      Memory.read t.vram (attrAddr (offsetOf c r)) = Memory.read s.vram (attrAddr (offsetOf c (r + 1)))) ∧
    (∀ c, c < 80 →
      Memory.read t.vram (cellAddr (offsetOf c 24)) = 0x20 ∧
      Memory.read t.vram (attrAddr (offsetOf c 24)) = Memory.read s.vram (attrAddr (offsetOf c 24))) ∧
    SameBufferBut (fun a => inBuffer a = true) s t

/-! ### Character write and clear -/

/-- R161: PUTC, whole. The cursor is read; outside the grid it raises OUT_OF_GRID with nothing else done; in the grid the
character goes to the cursor's cell by R160 (`charOffset`, `charByte` and `charTxns` are that procedure's offset, buffer and
transactions), and nothing else changes but `OFF` and the latch. -/
def Obligations.PutcWritesAtTheCursor : Prop :=
  DecodesAs 0xFFFF0000 0x70000000 (fun w => .putc (w.extractLsb' 0 8) (w.extractLsb' 8 8)) ∧
  (∀ (ch attr : Byte) (s : State), s.cursor.toNat < 2000 → ∃ t, exec (.putc ch attr) s = .next t ∧
    t.fsm = .idle ∧ t.result = BitVec.ofNat 32 (charOffset s.cursor.toNat ch) ∧
    t.cursor = BitVec.ofNat 16 (charOffset s.cursor.toNat ch) ∧ t.crtcIndex = 0x0F ∧
    (∀ a, Memory.read t.vram a = charByte (Memory.read s.vram) s.cursor.toNat ch attr a) ∧
    Performed (cursorReadTxns s.cursor ++ charTxns (Memory.read s.vram) s.cursor.toNat ch attr) s t ∧
    SameFaultRegs s t ∧ SameHostSide s t) ∧
  (∀ (ch attr : Byte) (s : State), 2000 ≤ s.cursor.toNat →
    exec (.putc ch attr) s = .next { s with
      crtcIndex := 0x0F, fsm := .halted, status := 0x32, faultCmd := encode (.putc ch attr), faultVal := s.cursor,
      busLog := (cursorReadTxns s.cursor).reverse ++ s.busLog })

/-- R162: PUTC_AT, whole. Outside the grid it raises COORD_RANGE with no transaction; in the grid the character goes to the
cell of the coordinate by R160, and the cursor is not read. -/
def Obligations.PutcAtWritesAtTheCoordinate : Prop :=
  DecodesAs 0xF0000000 0x80000000 (fun w =>
    .putcAt (w.extractLsb' 0 8) (w.extractLsb' 8 8) (w.extractLsb' 16 7).toNat (w.extractLsb' 23 5).toNat) ∧
  (∀ (ch attr : Byte) (col row : Nat) (s : State), col < 80 → row < 25 →
    ∃ t, exec (.putcAt ch attr col row) s = .next t ∧
      t.fsm = .idle ∧ t.result = BitVec.ofNat 32 (charOffset (row * 80 + col) ch) ∧
      t.cursor = BitVec.ofNat 16 (charOffset (row * 80 + col) ch) ∧ t.crtcIndex = 0x0F ∧
      (∀ a, Memory.read t.vram a = charByte (Memory.read s.vram) (row * 80 + col) ch attr a) ∧
      Performed (charTxns (Memory.read s.vram) (row * 80 + col) ch attr) s t ∧
      SameFaultRegs s t ∧ SameHostSide s t) ∧
  (∀ (ch attr : Byte) (col row : Nat) (s : State), (80 ≤ col ∨ 25 ≤ row) →
    exec (.putcAt ch attr col row) s = .next { s with
      fsm := .halted, status := 0x22, faultCmd := encode (.putcAt ch attr col row), faultVal := 0 })

/-- R169, R168: a character other than the newline at a cursor below 1999 changes exactly the two bytes of the cursor's cell,
and moves the cursor on by one. -/
def Obligations.PutcOrdinaryCharacter : Prop :=
  ∀ (ch attr : Byte) (s : State), ch ≠ 0x0A → s.cursor.toNat < 1999 →
    ∃ t, exec (.putc ch attr) s = .next t ∧
      Memory.read t.vram (cellAddr s.cursor.toNat) = ch ∧ Memory.read t.vram (attrAddr s.cursor.toNat) = attr ∧
      SameBufferBut (fun a => a = cellAddr s.cursor.toNat ∨ a = attrAddr s.cursor.toNat) s t ∧
      t.cursor.toNat = s.cursor.toNat + 1 ∧ t.result.toNat = s.cursor.toNat + 1

/-- R169, R161: a newline above the last row changes no byte and moves the cursor to the start of the next row. -/
def Obligations.PutcNewline : Prop :=
  ∀ (attr : Byte) (s : State), s.cursor.toNat < 1920 →
    ∃ t, exec (.putc 0x0A attr) s = .next t ∧ SameBuffer s t ∧
      t.cursor.toNat = (s.cursor.toNat / 80 + 1) * 80 ∧ t.result.toNat = (s.cursor.toNat / 80 + 1) * 80

/-- R164: a character at the last cell is drawn there and then moved to cell 1919 by the scroll; the cursor ends at 1920. -/
def Obligations.PutcAtTheLastCellScrolls : Prop :=
  ∀ (ch attr : Byte) (s : State), ch ≠ 0x0A → s.cursor.toNat = 1999 →
    ∃ t, exec (.putc ch attr) s = .next t ∧
      Memory.read t.vram (cellAddr 1919) = ch ∧ Memory.read t.vram (attrAddr 1919) = attr ∧
      Memory.read t.vram (cellAddr 1999) = 0x20 ∧ Memory.read t.vram (attrAddr 1999) = attr ∧
      (∀ o, o < 1919 →
        Memory.read t.vram (cellAddr o) = Memory.read s.vram (cellAddr (o + 80)) ∧
        Memory.read t.vram (attrAddr o) = Memory.read s.vram (attrAddr (o + 80))) ∧
      t.cursor.toNat = 1920 ∧ t.result.toNat = 1920

/-- R166: when a character scrolls: exactly then does the command read memory, one scroll's worth. -/
def Obligations.WhenACharacterScrolls : Prop :=
  ∀ (ch attr : Byte) (s : State), s.cursor.toNat < 2000 → ∃ t txns,
    exec (.putc ch attr) s = .next t ∧ Performed txns s t ∧
    ((busCost txns).memReads = 3840 ↔
      (ch ≠ 0x0A ∧ s.cursor.toNat = 1999) ∨ (ch = 0x0A ∧ 1920 ≤ s.cursor.toNat)) ∧
    ((busCost txns).memReads = 3840 ∨ (busCost txns).memReads = 0)

/-- R165: after a PUTC or PUTC_AT that raises no fault the cursor and `RESULT` hold one value, from 1 to 1999. -/
def Obligations.CharacterWritesStayOnScreen : Prop :=
  ∀ (i : Instr) (s t : State), exec i s = .next t → t.fsm = .idle →
    ((∃ ch attr, i = .putc ch attr) ∨ ∃ ch attr col row, i = .putcAt ch attr col row) →
    1 ≤ t.cursor.toNat ∧ t.cursor.toNat ≤ 1999 ∧ t.result.toNat = t.cursor.toNat

/-- R162: for a coordinate in range PUTC_AT ends as SET_CURSOR of its offset followed by PUTC: everything but the record of
transactions is equal. -/
def Obligations.PutcAtIsSetCursorThenPutc : Prop :=
  ∀ (ch attr : Byte) (col row : Nat) (s : State), col < 80 → row < 25 → ∃ t u v,
    exec (.putcAt ch attr col row) s = .next t ∧
    exec (.setCursor (BitVec.ofNat 16 (row * 80 + col))) s = .next u ∧ exec (.putc ch attr) u = .next v ∧
    { t with busLog := v.busLog } = v

/-- R167: CLEAR, whole: every cell blank with the default attribute, the cursor 0, the latch 0x0F, `RESULT` unchanged, 4000
memory writes and then the four port writes, and nothing else changed; a second CLEAR ends as the first. -/
def Obligations.ClearBlanksEveryCell : Prop :=
  DecodesAs 0xFFFFFFFF 0x90000000 (fun _ => .clear) ∧
  ∀ s : State, ∃ t, exec .clear s = .next t ∧
    t = { s with
      vram := t.vram, crtcIndex := 0x0F, curHi := 0, curLo := 0, busLog := t.busLog, fsm := .idle } ∧
    (∀ o, o < 2000 → Memory.read t.vram (cellAddr o) = 0x20 ∧ Memory.read t.vram (attrAddr o) = 0x02) ∧
    SameBufferBut (fun a => inBuffer a = true) s t ∧
    Performed (fillTxns (List.range 2000) ++ cursorWriteTxns 0) s t ∧ Costs ⟨4, 0, 0, 4000⟩ s t ∧
    ∃ u, exec .clear t = .next u ∧ SameBuffer t u ∧ SameAdapter t u ∧ u.result = t.result

/-- R167: CLEAR "gives a defined buffer and cursor from any state": from any two states with buffers in canonical form it
leaves the same buffer and cursor, and a second CLEAR changes only the record of transactions. -/
def Obligations.ClearForgetsTheScreen : Prop :=
  ∀ s u : State, BufferInv s → BufferInv u → ∃ t v, exec .clear s = .next t ∧ exec .clear u = .next v ∧
    t.vram = v.vram ∧ t.cursor = v.cursor ∧ t.crtcIndex = v.crtcIndex ∧
    ∃ x, exec .clear t = .next x ∧ { x with busLog := t.busLog } = t

/-! ### Faults -/

/-- R200, R204: what each fault writes to `STATUS`. -/
def Obligations.FaultStatusWords : Prop :=
  faultStatus .illegalCommand = 0x12 ∧ faultStatus .coordRange = 0x22 ∧ faultStatus .outOfGrid = 0x32 ∧
  ∀ (c : FaultCause) (val : Half) (w : Word) (s : State),
    raiseFault c val w s =
      { s with status := faultStatus c, faultCmd := w, faultVal := val, fsm := .halted } ∧
    (raiseFault c val w s).statusView = (0 : BitVec 24) ++ c.code ++ (0b0010 : BitVec 4)

/-- R202: PUTC_AT raises COORD_RANGE exactly when the coordinate is outside the grid, before any transaction; OFFSET_OF
never does. -/
def Obligations.CoordRangeExactly : Prop :=
  ∀ (s : State) (ch attr : Byte) (col row : Nat), ∃ t, exec (.putcAt ch attr col row) s = .next t ∧
    (t.fsm = .halted ↔ 80 ≤ col ∨ 25 ≤ row) ∧
    (t.fsm = .halted → t.status = faultStatus .coordRange ∧ t.busLog = s.busLog) ∧
    ∃ u, exec (.offsetOf col row) s = .next u ∧ u.fsm = .idle

/-- R203: PUTC raises OUT_OF_GRID exactly when the cursor is 2000 or more, newline or not, after the four transactions of
the cursor read and before any memory transaction; `FAULT_VAL` holds the cursor. -/
def Obligations.OutOfGridExactly : Prop :=
  ∀ (s : State) (ch attr : Byte), ∃ t, exec (.putc ch attr) s = .next t ∧
    (t.fsm = .halted ↔ 2000 ≤ s.cursor.toNat) ∧
    (t.fsm = .halted → t.status = faultStatus .outOfGrid ∧ t.faultVal = s.cursor ∧ t.vram = s.vram ∧
      Performed (cursorReadTxns s.cursor) s t)

/-- R205: a fault is precise: whatever word raises it, the buffer and the cursor are as before it, and the only transactions
are those of the cursor read of an OUT_OF_GRID; R204: `RESULT` is not written and `FAULT_CMD` is the word. That `OFF` is as
before is the model's (log 11, DEDUCED): 93_implementation_defined.md I10 lets it hold any value between commands. -/
def Obligations.FaultsArePrecise : Prop :=
  ∀ (s t : State) (w : Word) (rest : List HostAction), Submits w rest s → step s = .next t → t.fsm = .halted →
    t.vram = s.vram ∧ t.cursor = s.cursor ∧ t.result = s.result ∧ t.off = s.off ∧ t.faultCmd = w ∧
    (t.status = faultStatus .outOfGrid → Performed (cursorReadTxns s.cursor) s t ∧ t.crtcIndex = 0x0F) ∧
    (t.status ≠ faultStatus .outOfGrid → t.busLog = s.busLog ∧ SameAdapter s t)

/-! ### Costs, memory, assembler -/

/-- R242: the transactions each command performs. -/
def Obligations.TransactionCounts : Prop :=
  ∀ (i : Instr) (s t : State), exec i s = .next t →
    match i with
    | .offsetOf _ _ | .rowOf _ | .cellAddr _ => Costs ⟨0, 0, 0, 0⟩ s t
    | .getCursor => Costs ⟨2, 2, 0, 0⟩ s t
    | .setCursor _ => Costs ⟨4, 0, 0, 0⟩ s t
    | .scroll off => if off.toNat < 2000 then Costs ⟨0, 0, 0, 0⟩ s t else Costs ⟨0, 0, 3840, 3920⟩ s t
    | .putc ch _ =>
      if 2000 ≤ s.cursor.toNat then Costs ⟨2, 2, 0, 0⟩ s t
      else if charScrolls s.cursor.toNat ch then
        (if ch = 0x0A then Costs ⟨6, 2, 3840, 3920⟩ s t else Costs ⟨6, 2, 3840, 3922⟩ s t)
      else if ch = 0x0A then Costs ⟨6, 2, 0, 0⟩ s t else Costs ⟨6, 2, 0, 2⟩ s t
    | .putcAt ch _ col row =>
      if 80 ≤ col ∨ 25 ≤ row then Costs ⟨0, 0, 0, 0⟩ s t
      else if charScrolls (row * 80 + col) ch then
        (if ch = 0x0A then Costs ⟨4, 0, 3840, 3920⟩ s t else Costs ⟨4, 0, 3840, 3922⟩ s t)
      else if ch = 0x0A then Costs ⟨4, 0, 0, 0⟩ s t else Costs ⟨4, 0, 0, 2⟩ s t
    | .clear => Costs ⟨4, 0, 0, 4000⟩ s t

/-- R41: a write in the buffer is read back, and changes only its byte; a read changes nothing. -/
def Obligations.BufferIsPlainMemory : Prop :=
  ∀ (a : Nat) (v : Byte) (s : State), 0x000B8000 ≤ a → a ≤ 0x000B8F9F →
    (∃ t, memWrite a v s = .next t ∧ SameBufferBut (fun b => b = a) s t ∧
      ∃ u, memRead a t = .next (v, u) ∧ u.vram = t.vram) ∧
    ∃ u, memRead a s = .next (Memory.read s.vram a, u) ∧ { u with busLog := s.busLog } = s

/-- The command words of the assembler's lines (R83): the table of R83, the refusals, and the omitted attribute. -/
def Obligations.AssemblerWords : Prop :=
  (∀ col row : Nat, (AsmLine.offsetOf col row).assemble =
    if col ≤ 127 ∧ row ≤ 31 then
      some [0x10000000#32 ||| BitVec.ofNat 32 row <<< 23 ||| BitVec.ofNat 32 col <<< 16] else none) ∧
  (∀ off : Nat,
    (AsmLine.rowOf off).assemble = (if off ≤ 0xFFFF then some [0x20000000#32 ||| BitVec.ofNat 32 off] else none) ∧
    (AsmLine.cellAddr off).assemble = (if off ≤ 0xFFFF then some [0x30000000#32 ||| BitVec.ofNat 32 off] else none) ∧
    (AsmLine.setCursor off).assemble = (if off ≤ 0xFFFF then some [0x50000000#32 ||| BitVec.ofNat 32 off] else none) ∧
    (AsmLine.scroll off).assemble = (if off ≤ 0xFFFF then some [0x60000000#32 ||| BitVec.ofNat 32 off] else none)) ∧
  AsmLine.getCursor.assemble = some [0x40000000] ∧ AsmLine.clear.assemble = some [0x90000000] ∧
  (∀ ch attr : Nat,
    (AsmLine.putc ch (some attr)).assemble = (if ch ≤ 0xFF ∧ attr ≤ 0xFF then
      some [0x70000000#32 ||| BitVec.ofNat 32 attr <<< 8 ||| BitVec.ofNat 32 ch] else none) ∧
    (AsmLine.putc ch none).assemble = (AsmLine.putc ch (some 0x02)).assemble) ∧
  (∀ ch attr col row : Nat,
    (AsmLine.putcAt ch (some attr) col row).assemble = (if ch ≤ 0xFF ∧ attr ≤ 0xFF ∧ col ≤ 127 ∧ row ≤ 31 then
      some [0x80000000#32 ||| BitVec.ofNat 32 row <<< 23 ||| BitVec.ofNat 32 col <<< 16 |||
        BitVec.ofNat 32 attr <<< 8 ||| BitVec.ofNat 32 ch] else none) ∧
    (AsmLine.putcAt ch none col row).assemble = (AsmLine.putcAt ch (some 0x02) col row).assemble)

/-- The pseudo-instructions (R84), with the text rule of R85: every command they make is well-formed, a positioned text sets
the cursor first, and the text stops at its first zero byte. -/
def Obligations.PseudoInstructionExpansions : Prop :=
  (∀ l is, AsmLine.expand l = some is → ∀ i ∈ is, i.WellFormed = true) ∧
  (∀ before after : List Byte, (0 : Byte) ∉ before →
    (AsmLine.print before).expand = some (before.map fun b => .putc b 0x02) ∧
    (AsmLine.print (before ++ 0 :: after)).expand = some (before.map fun b => .putc b 0x02) ∧
    (AsmLine.printLine (some before)).expand = some ((before.map fun b => .putc b 0x02) ++ [.putc 0x0A 0x02])) ∧
  (AsmLine.printLine none).expand = some [.putc 0x0A 0x02] ∧
  (∀ (text : List Byte) (col row : Int),
    (0 ≤ col → col < 80 → 0 ≤ row → row < 25 →
      (AsmLine.printAt text col row).expand =
        some (.setCursor (BitVec.ofInt 16 (row * 80 + col)) :: expandPrint text)) ∧
    (0 ≤ col → 0 ≤ row → (80 ≤ col ∨ 25 ≤ row) → (AsmLine.printAt text col row).expand = none) ∧
    ((col < 0 ∨ row < 0) → (AsmLine.printAt text col row).expand = (AsmLine.print text).expand))
end

