-- ==== Sys2Proof/Laws/State.lean ====
section
/-! SUPPORT. What each update of the state does to each field: one lemma a field an update, each true by `rfl`. -/

namespace Sys2Proof.Machine

/-! ### `enter` -/

@[simp] theorem enter_result (f : Fsm) (s : State) : (enter f s).result = s.result := rfl
@[simp] theorem enter_status (f : Fsm) (s : State) : (enter f s).status = s.status := rfl
@[simp] theorem enter_faultCmd (f : Fsm) (s : State) : (enter f s).faultCmd = s.faultCmd := rfl
@[simp] theorem enter_faultVal (f : Fsm) (s : State) : (enter f s).faultVal = s.faultVal := rfl
@[simp] theorem enter_off (f : Fsm) (s : State) : (enter f s).off = s.off := rfl
@[simp] theorem enter_fsm (f : Fsm) (s : State) : (enter f s).fsm = f := rfl
@[simp] theorem enter_crtcIndex (f : Fsm) (s : State) : (enter f s).crtcIndex = s.crtcIndex := rfl
@[simp] theorem enter_curHi (f : Fsm) (s : State) : (enter f s).curHi = s.curHi := rfl
@[simp] theorem enter_curLo (f : Fsm) (s : State) : (enter f s).curLo = s.curLo := rfl
@[simp] theorem enter_vram (f : Fsm) (s : State) : (enter f s).vram = s.vram := rfl
@[simp] theorem enter_busLog (f : Fsm) (s : State) : (enter f s).busLog = s.busLog := rfl
@[simp] theorem enter_host (f : Fsm) (s : State) : (enter f s).host = s.host := rfl
@[simp] theorem enter_draws (f : Fsm) (s : State) : (enter f s).draws = s.draws := rfl

/-! ### `complete` -/

@[simp] theorem complete_result (s : State) : (complete s).result = s.result := rfl
@[simp] theorem complete_status (s : State) : (complete s).status = s.status := rfl
@[simp] theorem complete_faultCmd (s : State) : (complete s).faultCmd = s.faultCmd := rfl
@[simp] theorem complete_faultVal (s : State) : (complete s).faultVal = s.faultVal := rfl
@[simp] theorem complete_off (s : State) : (complete s).off = s.off := rfl
@[simp] theorem complete_fsm (s : State) : (complete s).fsm = .idle := rfl
@[simp] theorem complete_crtcIndex (s : State) : (complete s).crtcIndex = s.crtcIndex := rfl
@[simp] theorem complete_curHi (s : State) : (complete s).curHi = s.curHi := rfl
@[simp] theorem complete_curLo (s : State) : (complete s).curLo = s.curLo := rfl
@[simp] theorem complete_vram (s : State) : (complete s).vram = s.vram := rfl
@[simp] theorem complete_busLog (s : State) : (complete s).busLog = s.busLog := rfl
@[simp] theorem complete_host (s : State) : (complete s).host = s.host := rfl
@[simp] theorem complete_draws (s : State) : (complete s).draws = s.draws := rfl

/-! ### `acceptWord` -/

@[simp] theorem acceptWord_result (s : State) : (acceptWord s).result = s.result := rfl
@[simp] theorem acceptWord_status (s : State) : (acceptWord s).status = s.status := rfl
@[simp] theorem acceptWord_faultCmd (s : State) : (acceptWord s).faultCmd = s.faultCmd := rfl
@[simp] theorem acceptWord_faultVal (s : State) : (acceptWord s).faultVal = s.faultVal := rfl
@[simp] theorem acceptWord_off (s : State) : (acceptWord s).off = s.off := rfl
@[simp] theorem acceptWord_fsm (s : State) : (acceptWord s).fsm = .exec := rfl
@[simp] theorem acceptWord_crtcIndex (s : State) : (acceptWord s).crtcIndex = s.crtcIndex := rfl
@[simp] theorem acceptWord_curHi (s : State) : (acceptWord s).curHi = s.curHi := rfl
@[simp] theorem acceptWord_curLo (s : State) : (acceptWord s).curLo = s.curLo := rfl
@[simp] theorem acceptWord_vram (s : State) : (acceptWord s).vram = s.vram := rfl
@[simp] theorem acceptWord_busLog (s : State) : (acceptWord s).busLog = s.busLog := rfl
@[simp] theorem acceptWord_host (s : State) : (acceptWord s).host = s.host := rfl
@[simp] theorem acceptWord_draws (s : State) : (acceptWord s).draws = s.draws := rfl

/-! ### `setResult` -/

@[simp] theorem setResult_result (v : Word) (s : State) : (setResult v s).result = v := rfl
@[simp] theorem setResult_status (v : Word) (s : State) : (setResult v s).status = s.status := rfl
@[simp] theorem setResult_faultCmd (v : Word) (s : State) : (setResult v s).faultCmd = s.faultCmd := rfl
@[simp] theorem setResult_faultVal (v : Word) (s : State) : (setResult v s).faultVal = s.faultVal := rfl
@[simp] theorem setResult_off (v : Word) (s : State) : (setResult v s).off = s.off := rfl
@[simp] theorem setResult_fsm (v : Word) (s : State) : (setResult v s).fsm = s.fsm := rfl
@[simp] theorem setResult_crtcIndex (v : Word) (s : State) : (setResult v s).crtcIndex = s.crtcIndex := rfl
@[simp] theorem setResult_curHi (v : Word) (s : State) : (setResult v s).curHi = s.curHi := rfl
@[simp] theorem setResult_curLo (v : Word) (s : State) : (setResult v s).curLo = s.curLo := rfl
@[simp] theorem setResult_vram (v : Word) (s : State) : (setResult v s).vram = s.vram := rfl
@[simp] theorem setResult_busLog (v : Word) (s : State) : (setResult v s).busLog = s.busLog := rfl
@[simp] theorem setResult_host (v : Word) (s : State) : (setResult v s).host = s.host := rfl
@[simp] theorem setResult_draws (v : Word) (s : State) : (setResult v s).draws = s.draws := rfl

/-! ### `setOff` -/

@[simp] theorem setOff_result (o : Half) (s : State) : (setOff o s).result = s.result := rfl
@[simp] theorem setOff_status (o : Half) (s : State) : (setOff o s).status = s.status := rfl
@[simp] theorem setOff_faultCmd (o : Half) (s : State) : (setOff o s).faultCmd = s.faultCmd := rfl
@[simp] theorem setOff_faultVal (o : Half) (s : State) : (setOff o s).faultVal = s.faultVal := rfl
@[simp] theorem setOff_off (o : Half) (s : State) : (setOff o s).off = o := rfl
@[simp] theorem setOff_fsm (o : Half) (s : State) : (setOff o s).fsm = s.fsm := rfl
@[simp] theorem setOff_crtcIndex (o : Half) (s : State) : (setOff o s).crtcIndex = s.crtcIndex := rfl
@[simp] theorem setOff_curHi (o : Half) (s : State) : (setOff o s).curHi = s.curHi := rfl
@[simp] theorem setOff_curLo (o : Half) (s : State) : (setOff o s).curLo = s.curLo := rfl
@[simp] theorem setOff_vram (o : Half) (s : State) : (setOff o s).vram = s.vram := rfl
@[simp] theorem setOff_busLog (o : Half) (s : State) : (setOff o s).busLog = s.busLog := rfl
@[simp] theorem setOff_host (o : Half) (s : State) : (setOff o s).host = s.host := rfl
@[simp] theorem setOff_draws (o : Half) (s : State) : (setOff o s).draws = s.draws := rfl

/-! ### `record` -/

@[simp] theorem record_result (t : Txn) (s : State) : (record t s).result = s.result := rfl
@[simp] theorem record_status (t : Txn) (s : State) : (record t s).status = s.status := rfl
@[simp] theorem record_faultCmd (t : Txn) (s : State) : (record t s).faultCmd = s.faultCmd := rfl
@[simp] theorem record_faultVal (t : Txn) (s : State) : (record t s).faultVal = s.faultVal := rfl
@[simp] theorem record_off (t : Txn) (s : State) : (record t s).off = s.off := rfl
@[simp] theorem record_fsm (t : Txn) (s : State) : (record t s).fsm = s.fsm := rfl
@[simp] theorem record_crtcIndex (t : Txn) (s : State) : (record t s).crtcIndex = s.crtcIndex := rfl
@[simp] theorem record_curHi (t : Txn) (s : State) : (record t s).curHi = s.curHi := rfl
@[simp] theorem record_curLo (t : Txn) (s : State) : (record t s).curLo = s.curLo := rfl
@[simp] theorem record_vram (t : Txn) (s : State) : (record t s).vram = s.vram := rfl
@[simp] theorem record_busLog (t : Txn) (s : State) : (record t s).busLog = t :: s.busLog := rfl
@[simp] theorem record_host (t : Txn) (s : State) : (record t s).host = s.host := rfl
@[simp] theorem record_draws (t : Txn) (s : State) : (record t s).draws = s.draws := rfl

/-! ### `raiseFault` -/

@[simp] theorem raiseFault_result (c : FaultCause) (v : Half) (w : Word) (s : State) : (raiseFault c v w s).result = s.result := rfl
@[simp] theorem raiseFault_status (c : FaultCause) (v : Half) (w : Word) (s : State) : (raiseFault c v w s).status = faultStatus c := rfl
@[simp] theorem raiseFault_faultCmd (c : FaultCause) (v : Half) (w : Word) (s : State) : (raiseFault c v w s).faultCmd = w := rfl
@[simp] theorem raiseFault_faultVal (c : FaultCause) (v : Half) (w : Word) (s : State) : (raiseFault c v w s).faultVal = v := rfl
@[simp] theorem raiseFault_off (c : FaultCause) (v : Half) (w : Word) (s : State) : (raiseFault c v w s).off = s.off := rfl
@[simp] theorem raiseFault_fsm (c : FaultCause) (v : Half) (w : Word) (s : State) : (raiseFault c v w s).fsm = .halted := rfl
@[simp] theorem raiseFault_crtcIndex (c : FaultCause) (v : Half) (w : Word) (s : State) : (raiseFault c v w s).crtcIndex = s.crtcIndex := rfl
@[simp] theorem raiseFault_curHi (c : FaultCause) (v : Half) (w : Word) (s : State) : (raiseFault c v w s).curHi = s.curHi := rfl
@[simp] theorem raiseFault_curLo (c : FaultCause) (v : Half) (w : Word) (s : State) : (raiseFault c v w s).curLo = s.curLo := rfl
@[simp] theorem raiseFault_vram (c : FaultCause) (v : Half) (w : Word) (s : State) : (raiseFault c v w s).vram = s.vram := rfl
@[simp] theorem raiseFault_busLog (c : FaultCause) (v : Half) (w : Word) (s : State) : (raiseFault c v w s).busLog = s.busLog := rfl
@[simp] theorem raiseFault_host (c : FaultCause) (v : Half) (w : Word) (s : State) : (raiseFault c v w s).host = s.host := rfl
@[simp] theorem raiseFault_draws (c : FaultCause) (v : Half) (w : Word) (s : State) : (raiseFault c v w s).draws = s.draws := rfl

/-! ### `blockReset` -/

@[simp] theorem blockReset_result (s : State) : (blockReset s).result = 0 := rfl
@[simp] theorem blockReset_status (s : State) : (blockReset s).status = 0 := rfl
@[simp] theorem blockReset_faultCmd (s : State) : (blockReset s).faultCmd = 0 := rfl
@[simp] theorem blockReset_faultVal (s : State) : (blockReset s).faultVal = 0 := rfl
@[simp] theorem blockReset_off (s : State) : (blockReset s).off = Config.unspecifiedOff s.draws := rfl
@[simp] theorem blockReset_fsm (s : State) : (blockReset s).fsm = .idle := rfl
@[simp] theorem blockReset_crtcIndex (s : State) : (blockReset s).crtcIndex = s.crtcIndex := rfl
@[simp] theorem blockReset_curHi (s : State) : (blockReset s).curHi = s.curHi := rfl
@[simp] theorem blockReset_curLo (s : State) : (blockReset s).curLo = s.curLo := rfl
@[simp] theorem blockReset_vram (s : State) : (blockReset s).vram = s.vram := rfl
@[simp] theorem blockReset_busLog (s : State) : (blockReset s).busLog = s.busLog := rfl
@[simp] theorem blockReset_host (s : State) : (blockReset s).host = s.host := rfl
@[simp] theorem blockReset_draws (s : State) : (blockReset s).draws = s.draws + 1 := rfl

/-! ### `submitNext` -/

@[simp] theorem submitNext_result (w : Word) (s : State) : (submitNext w s).result = s.result := rfl
@[simp] theorem submitNext_status (w : Word) (s : State) : (submitNext w s).status = s.status := rfl
@[simp] theorem submitNext_faultCmd (w : Word) (s : State) : (submitNext w s).faultCmd = s.faultCmd := rfl
@[simp] theorem submitNext_faultVal (w : Word) (s : State) : (submitNext w s).faultVal = s.faultVal := rfl
@[simp] theorem submitNext_off (w : Word) (s : State) : (submitNext w s).off = s.off := rfl
@[simp] theorem submitNext_fsm (w : Word) (s : State) : (submitNext w s).fsm = s.fsm := rfl
@[simp] theorem submitNext_crtcIndex (w : Word) (s : State) : (submitNext w s).crtcIndex = s.crtcIndex := rfl
@[simp] theorem submitNext_curHi (w : Word) (s : State) : (submitNext w s).curHi = s.curHi := rfl
@[simp] theorem submitNext_curLo (w : Word) (s : State) : (submitNext w s).curLo = s.curLo := rfl
@[simp] theorem submitNext_vram (w : Word) (s : State) : (submitNext w s).vram = s.vram := rfl
@[simp] theorem submitNext_busLog (w : Word) (s : State) : (submitNext w s).busLog = s.busLog := rfl
@[simp] theorem submitNext_host (w : Word) (s : State) : (submitNext w s).host = .submit w :: s.host := rfl
@[simp] theorem submitNext_draws (w : Word) (s : State) : (submitNext w s).draws = s.draws := rfl

end Sys2Proof.Machine
end

