-- ==== Sys2Proof/Laws/Ops.lean ====
section
/-! SUPPORT. What each shared operation does: sequencing, the buffer as data, the bus transactions, the cursor sequences. -/

namespace Sys2Proof.Machine

/-! ### Sequencing -/

@[simp] theorem Run.andThen_next {α β : Type} (a : α) (k : α → Run β) :
    Run.andThen (.next a) k = k a := rfl

@[simp] theorem Run.andThen_fault {α β : Type} (f : Fault) (k : α → Run β) :
    Run.andThen (.fault f) k = .fault f := rfl

@[simp] theorem Run.andThen_refused {α β : Type} (q : Refusal) (k : α → Run β) :
    Run.andThen (.refused q) k = .refused q := rfl

/-- A sequence answers next only through both its parts. -/
theorem Run.andThen_eq_next {α β : Type} {r : Run α} {k : α → Run β} {b : β}
    (h : r.andThen k = .next b) : ∃ a, r = .next a ∧ k a = .next b := by
  cases r with
  | next a => exact ⟨a, rfl, h⟩
  | fault f => cases h
  | refused q => cases h

@[simp] theorem forEach_nil {α : Type} (body : α → State → Run State) (s : State) :
    forEach body [] s = .next s := rfl

@[simp] theorem forEach_cons {α : Type} (body : α → State → Run State) (x : α) (xs : List α) (s : State) :
    forEach body (x :: xs) s = (body x s).andThen (forEach body xs) := rfl

/-- A loop over `xs ++ [x]` is the loop over `xs`, then `x`. -/
theorem forEach_snoc {α : Type} (body : α → State → Run State) (xs : List α) (x : α) (s : State) :
    forEach body (xs ++ [x]) s = (forEach body xs s).andThen (body x) := by
  induction xs generalizing s with
  | nil => cases h : body x s <;> simp [h]
  | cons y ys ih =>
    cases h : body y s with
    | next s' => simpa [h] using ih s'
    | fault f => simp [h]
    | refused q => simp [h]

/-! ### The buffer as data -/

namespace Memory

theorem lookup_write_same (m : Memory) (a : Nat) (v : Byte) : lookup (write m a v) a = some v := by
  induction m with
  | nil => simp [write, lookup]
  | cons c m ih =>
    obtain ⟨k, u⟩ := c
    simp only [write]
    split
    · simp [lookup]
    · split
      · simp [lookup]
      · next h => simp [lookup, h, ih]

theorem lookup_write_other (m : Memory) {a b : Nat} (v : Byte) (h : b ≠ a) :
    lookup (write m a v) b = lookup m b := by
  induction m with
  | nil => simp [write, lookup, h]
  | cons c m ih =>
    obtain ⟨k, u⟩ := c
    simp only [write]
    split
    · simp [lookup, h]
    · split
      · next heq => subst heq; simp [lookup, h]
      · simp [lookup, ih]

/-- A read gives what was last written (R41). -/
@[simp] theorem read_write_same (m : Memory) (a : Nat) (v : Byte) : read (write m a v) a = v := by
  simp [read, lookup_write_same]

/-- A write changes only the byte it writes (R41). -/
theorem read_write_other (m : Memory) {a b : Nat} (v : Byte) (h : b ≠ a) :
    read (write m a v) b = read m b := by
  simp [read, lookup_write_other m v h]

theorem read_write (m : Memory) (a b : Nat) (v : Byte) :
    read (write m a v) b = if b = a then v else read m b := by
  split
  · next h => subst h; simp
  · next h => exact read_write_other m v h

theorem mem_write {m : Memory} {a : Nat} {v : Byte} {c : Host.Cell} (h : c ∈ write m a v) :
    c = (a, v) ∨ c ∈ m := by
  induction m with
  | nil => simpa [write] using h
  | cons d m ih =>
    obtain ⟨k, u⟩ := d
    simp only [write] at h
    split at h
    · simpa using h
    · split at h
      · rcases List.mem_cons.1 h with h | h
        · exact .inl h
        · exact .inr (by simp [h])
      · rcases List.mem_cons.1 h with h | h
        · exact .inr (by simp [h])
        · exact (ih h).imp_right fun h => by simp [h]

/-- Writing keeps the canonical form. -/
theorem write_wf {m : Memory} (hm : wf m) {a : Nat} (v : Byte) (ha : inBuffer a = true) : wf (write m a v) := by
  refine ⟨?_, fun c hc => ?_⟩
  · have hs := hm.1
    clear hm
    induction m with
    | nil => simp [write]
    | cons d m ih =>
      obtain ⟨k, u⟩ := d
      have hd := List.pairwise_cons.1 hs
      simp only [write]
      split
      · next hlt =>
        refine List.pairwise_cons.2 ⟨fun c hc => ?_, hs⟩
        rcases List.mem_cons.1 hc with rfl | hc
        · exact hlt
        · exact Nat.lt_trans hlt (hd.1 c hc)
      · split
        · next heq => subst heq; exact List.pairwise_cons.2 ⟨hd.1, hd.2⟩
        · refine List.pairwise_cons.2 ⟨fun c hc => ?_, ih hd.2⟩
          rcases mem_write hc with rfl | hc
          · show k < a; omega
          · exact hd.1 c hc
  · rcases mem_write hc with rfl | hc
    · exact ha
    · exact hm.2 c hc

theorem lookup_eq_none_of_lt {m : Memory} {a : Nat} (h : ∀ c ∈ m, a < c.1) : lookup m a = none := by
  induction m with
  | nil => rfl
  | cons c m ih =>
    obtain ⟨k, u⟩ := c
    have hk : a ≠ k := Nat.ne_of_lt (h (k, u) (by simp))
    simp [lookup, hk, ih fun d hd => h d (by simp [hd])]

theorem lookup_head (k : Nat) (u : Byte) (m : Memory) : lookup ((k, u) :: m) k = some u := by simp [lookup]

/-- The canonical form: two sorted buffers in which the same addresses hold the same written bytes are the same data. -/
theorem eq_of_lookup_eq {m n : Memory} (hm : List.Pairwise (fun x y => x.1 < y.1) m)
    (hn : List.Pairwise (fun x y => x.1 < y.1) n) (h : ∀ a, lookup m a = lookup n a) : m = n := by
  induction m generalizing n with
  | nil =>
    cases n with
    | nil => rfl
    | cons d n => obtain ⟨k, u⟩ := d; have := h k; rw [lookup_head] at this; cases this
  | cons c m ih =>
    obtain ⟨j, u⟩ := c
    have hc := List.pairwise_cons.1 hm
    cases n with
    | nil => have := h j; rw [lookup_head] at this; cases this
    | cons d n =>
      obtain ⟨k, v⟩ := d
      have hd := List.pairwise_cons.1 hn
      have hjk : j = k := by
        rcases Nat.lt_trichotomy j k with hlt | heq | hgt
        · have hj := h j
          have hnone : lookup ((k, v) :: n) j = none := lookup_eq_none_of_lt fun c hc' => by
            rcases List.mem_cons.1 hc' with rfl | hc'
            · exact hlt
            · exact Nat.lt_trans hlt (hd.1 c hc')
          rw [lookup_head, hnone] at hj
          cases hj
        · exact heq
        · have hk := h k
          have hnone : lookup ((j, u) :: m) k = none := lookup_eq_none_of_lt fun c hc' => by
            rcases List.mem_cons.1 hc' with rfl | hc'
            · exact hgt
            · exact Nat.lt_trans hgt (hc.1 c hc')
          rw [lookup_head, hnone] at hk
          cases hk
      subst hjk
      have huv : u = v := by
        have := h j
        rw [lookup_head, lookup_head] at this
        exact Option.some.inj this
      subst huv
      refine congrArg ((j, u) :: ·) (ih hc.2 hd.2 fun a => ?_)
      by_cases ha : a = j
      · subst ha
        rw [lookup_eq_none_of_lt hc.1, lookup_eq_none_of_lt hd.1]
      · simpa [lookup, ha] using h a

/-- The empty buffer, as after power-on, is in canonical form. -/
theorem wf_nil : wf [] := ⟨.nil, by simp⟩

end Memory

/-! ### Bytes of a cursor value -/

/-- `{v[15:8], v[7:0]} = v` (R44, R49). -/
@[simp] theorem joinBytes_split (v : Half) : joinBytes (hiByte v) (loByte v) = v := by
  apply BitVec.eq_of_getLsbD_eq
  intro i hi
  simp only [joinBytes, hiByte, loByte, BitVec.getLsbD_append, BitVec.getLsbD_extractLsb']
  by_cases h : i < 8
  · simp [h]
  · have h8 : i - 8 < 8 := by omega
    have : 8 + (i - 8) = i := by omega
    simp [h, h8, this]

@[simp] theorem hiByte_join (h l : Byte) : hiByte (joinBytes h l) = h := by
  apply BitVec.eq_of_getLsbD_eq
  intro i hi
  have hn : ¬ 8 + i < 8 := by omega
  simp only [joinBytes, hiByte, BitVec.getLsbD_extractLsb', BitVec.getLsbD_append, hn]
  simp [hi]

@[simp] theorem loByte_join (h l : Byte) : loByte (joinBytes h l) = l := by
  apply BitVec.eq_of_getLsbD_eq
  intro i hi
  simp only [joinBytes, loByte, BitVec.getLsbD_extractLsb', BitVec.getLsbD_append, Nat.zero_add, hi]
  simp [hi]

theorem hiByte_cursor (s : State) : hiByte s.cursor = s.curHi := by simp [State.cursor]

theorem loByte_cursor (s : State) : loByte s.cursor = s.curLo := by simp [State.cursor]

/-! ### The bus transactions -/

/-- A read inside the buffer gives the byte, and changes nothing but the record of transactions. -/
theorem memRead_inBuffer {a : Nat} (h : inBuffer a = true) (s : State) :
    memRead a s = .next (Memory.read s.vram a, { s with busLog := .memRead a (Memory.read s.vram a) :: s.busLog }) := by
  simp [memRead, h, record]

/-- A write inside the buffer changes the byte, and records the transaction. -/
theorem memWrite_inBuffer {a : Nat} (h : inBuffer a = true) (v : Byte) (s : State) :
    memWrite a v s =
      .next { s with vram := Memory.write s.vram a v, busLog := .memWrite a v :: s.busLog } := by
  simp [memWrite, h, record]

/-! ### The cursor sequences -/

/-- `CursorRead()` gives the cursor, leaves the latch at 0x0F and the cursor as it is, and performs its four transactions
(R122, R129). It never stops (R130). -/
theorem cursorRead_eq (s : State) :
    cursorRead s = .next (s.cursor,
      { s with
        crtcIndex := Config.curLoIndex
        fsm := .exec
        busLog := (cursorReadTxns s.cursor).reverse ++ s.busLog }) := by
  simp [cursorRead, readSelectHigh, readTransferHigh, readSelectLow, readTransferLow, portWrite, portRead, enter,
    record, cursorReadTxns, State.cursor]

/-- `CursorWrite(v)` leaves the cursor at `v` and the latch at 0x0F, and performs its four transactions (R124, R129). It
never stops (R130). -/
theorem cursorWrite_eq (v : Half) (s : State) :
    cursorWrite v s = .next
      { s with
        crtcIndex := Config.curLoIndex
        curHi := hiByte v
        curLo := loByte v
        fsm := .exec
        busLog := (cursorWriteTxns v).reverse ++ s.busLog } := by
  simp [cursorWrite, writeSelectHigh, writeTransferHigh, writeSelectLow, writeTransferLow, portWrite, enter,
    record, cursorWriteTxns]

end Sys2Proof.Machine
end

