-- ==== Sys2Proof/Laws/Operands.lean ====
section
/-! SUPPORT. The address calculator in plain numerals: the form in which `omega` reads it. -/

namespace Sys2Proof.Machine

theorem offsetOf_eq (col row : Nat) : offsetOf col row = row * 80 + col := rfl

theorem rowOf_eq (o : Nat) : rowOf o = o / 80 := rfl

theorem lineEnd_eq (o : Nat) : lineEnd o = o / 80 * 80 + 79 := rfl

theorem cellAddr_eq (o : Nat) : cellAddr o = 753664 + 2 * o := rfl

theorem attrAddr_eq (o : Nat) : attrAddr o = 753664 + 2 * o + 1 := rfl

theorem rowByteAddr_eq (r b : Nat) : rowByteAddr r b = 753664 + 160 * r + b := rfl

theorem inGrid_iff {o : Nat} : inGrid o = true ↔ o < 2000 := by
  simp only [inGrid, decide_eq_true_eq]; rfl

theorem inGrid_false_iff {o : Nat} : inGrid o = false ↔ 2000 ≤ o := by
  rw [← Bool.not_eq_true, inGrid_iff, Nat.not_lt]

theorem inBuffer_iff {a : Nat} : inBuffer a = true ↔ 753664 ≤ a ∧ a < 757664 := by
  simp only [inBuffer, Bool.and_eq_true, decide_eq_true_eq]; rfl

theorem coordInGrid_iff {col row : Nat} : coordInGrid col row = true ↔ col < 80 ∧ row < 25 := by
  simp only [coordInGrid, Bool.and_eq_true, decide_eq_true_eq]; rfl

/-- An in-grid coordinate is an in-grid offset (R109). -/
theorem offsetOf_inGrid {col row : Nat} (h : coordInGrid col row = true) : inGrid (offsetOf col row) = true := by
  rw [coordInGrid_iff] at h
  rw [inGrid_iff, offsetOf_eq]
  omega

theorem scrolledByte_eq (old : Nat → Byte) (a : Nat) :
    scrolledByte old a =
      if 753664 ≤ a ∧ a < 757504 then old (a + 160)
      else if 757504 ≤ a ∧ a < 757664 ∧ (a - 753664) % 2 = 0 then Config.blankChar
      else old a := rfl

/-- Every byte of every row is in the buffer (R45). -/
theorem inBuffer_rowByteAddr {r b : Nat} (hr : r < 25) (hb : b < 160) : inBuffer (rowByteAddr r b) = true := by
  rw [inBuffer_iff, rowByteAddr_eq]; omega

/-- Both bytes of every cell of the grid are in the buffer (R42). -/
theorem inBuffer_cellAddr {o : Nat} (h : o < 2000) : inBuffer (cellAddr o) = true := by
  rw [inBuffer_iff, cellAddr_eq]; omega

theorem inBuffer_attrAddr {o : Nat} (h : o < 2000) : inBuffer (attrAddr o) = true := by
  rw [inBuffer_iff, attrAddr_eq]; omega

end Sys2Proof.Machine
end

