-- ==== Sys2Proof/Laws/Scrolling.lean ====
section
/-! SUPPORT. What the scrolling engine does (R140 to R147): its one no-op case and its one shifting case. -/

namespace Sys2Proof.Machine

/-- Running `f` on `s` leaves everything but the buffer and the record of transactions, performs `txns`, makes every address
read as `after` says, and keeps the canonical form of the buffer. -/
def BufferRun (r : Run State) (s : State) (txns : List Txn) (after : Nat → Byte) : Prop :=
  ∃ m, r = .next { s with vram := m, busLog := txns.reverse ++ s.busLog } ∧
    (∀ a, Memory.read m a = after a) ∧ (Memory.wf s.vram → Memory.wf m)

/-- Doing nothing. -/
theorem BufferRun.pure (s : State) : BufferRun (.next s) s [] (Memory.read s.vram) :=
  ⟨s.vram, by simp, fun _ => rfl, id⟩

/-- One buffer run, then another from the state it leaves. -/
theorem BufferRun.seq {r : Run State} {k : State → Run State} {s : State} {t1 t2 : List Txn} {f1 f2 : Nat → Byte}
    (h1 : BufferRun r s t1 f1)
    (h2 : ∀ s1 : State, (∀ a, Memory.read s1.vram a = f1 a) → BufferRun (k s1) s1 t2 f2) :
    BufferRun (r.andThen k) s (t1 ++ t2) f2 := by
  obtain ⟨m1, rfl, hm1, hw1⟩ := h1
  obtain ⟨m2, he, hm2, hw2⟩ := h2 { s with vram := m1, busLog := t1.reverse ++ s.busLog } hm1
  exact ⟨m2, by simp [he], hm2, fun hw => hw2 (hw1 hw)⟩

/-- A buffer run may be described by another function with the same values. -/
theorem BufferRun.congr {r : Run State} {s : State} {t1 t2 : List Txn} {f1 f2 : Nat → Byte}
    (h : BufferRun r s t1 f1) (ht : t1 = t2) (hf : ∀ a, f1 a = f2 a) : BufferRun r s t2 f2 := by
  obtain ⟨m, he, hm, hw⟩ := h
  exact ⟨m, ht ▸ he, fun a => (hm a).trans (hf a), hw⟩

/-- `f` depends on the buffer alone and changes the buffer alone, recording its transactions. -/
def BufferOnly (f : State → Run State) : Prop :=
  ∃ (g : Memory → Memory) (txns : Memory → List Txn),
    ∀ s, f s = .next { s with vram := g s.vram, busLog := txns s.vram ++ s.busLog }

theorem BufferOnly.pure : BufferOnly fun s => .next s := ⟨id, fun _ => [], fun s => by simp⟩

theorem BufferOnly.seq {f k : State → Run State} (hf : BufferOnly f) (hk : BufferOnly k) :
    BufferOnly fun s => (f s).andThen k := by
  obtain ⟨g1, t1, h1⟩ := hf
  obtain ⟨g2, t2, h2⟩ := hk
  exact ⟨fun m => g2 (g1 m), fun m => t2 (g1 m) ++ t1 m, fun s => by simp [h1, h2]⟩

theorem BufferOnly.loop {α : Type} {body : α → State → Run State} {xs : List α}
    (h : ∀ x ∈ xs, BufferOnly (body x)) : BufferOnly (forEach body xs) := by
  induction xs with
  | nil => exact .pure
  | cons x xs ih => exact (h x (by simp)).seq (ih fun y hy => h y (by simp [hy]))

theorem BufferOnly.write {a : Nat} (h : inBuffer a = true) (v : Byte) : BufferOnly (memWrite a v) :=
  ⟨fun m => Memory.write m a v, fun _ => [.memWrite a v], fun s => by simp [memWrite_inBuffer h]⟩

/-- One memory write inside the buffer. -/
theorem BufferRun.write {a : Nat} (h : inBuffer a = true) (v : Byte) (s : State) :
    BufferRun (memWrite a v s) s [.memWrite a v] (fun b => if b = a then v else Memory.read s.vram b) :=
  ⟨_, by simpa using memWrite_inBuffer h v s, fun b => Memory.read_write s.vram a b v, fun hw => Memory.write_wf hw v h⟩

theorem copyByte_run {r b : Nat} (h1 : 1 ≤ r) (hr : r < 25) (hb : b < 160) (s : State) :
    BufferRun (copyByte r b s) s (copyTxns (Memory.read s.vram) r [b])
      (fun a => if a = rowByteAddr (r - 1) b then Memory.read s.vram (rowByteAddr r b) else Memory.read s.vram a) := by
  have hd : inBuffer (rowByteAddr (r - 1) b) = true := inBuffer_rowByteAddr (by omega) hb
  refine ⟨Memory.write s.vram (rowByteAddr (r - 1) b) (Memory.read s.vram (rowByteAddr r b)), ?_,
    fun a => Memory.read_write _ _ _ _, fun hw => Memory.write_wf hw _ hd⟩
  simp only [copyByte, memRead_inBuffer (inBuffer_rowByteAddr hr hb), Run.andThen_next, memWrite_inBuffer hd]
  simp [copyTxns]

theorem copyByte_bufferOnly {r b : Nat} (h1 : 1 ≤ r) (hr : r < 25) (hb : b < 160) : BufferOnly (copyByte r b) :=
  ⟨fun m => Memory.write m (rowByteAddr (r - 1) b) (Memory.read m (rowByteAddr r b)),
    fun m => [.memWrite (rowByteAddr (r - 1) b) (Memory.read m (rowByteAddr r b)),
      .memRead (rowByteAddr r b) (Memory.read m (rowByteAddr r b))],
    fun s => by
      have hd : inBuffer (rowByteAddr (r - 1) b) = true := inBuffer_rowByteAddr (by omega) hb
      simp [copyByte, memRead_inBuffer (inBuffer_rowByteAddr hr hb), memWrite_inBuffer hd]⟩

/-- The row shift depends on the buffer alone. -/
theorem shiftRows_bufferOnly : BufferOnly shiftRows := by
  refine BufferOnly.loop fun r hr => BufferOnly.loop fun b hb => ?_
  simp only [List.mem_range'_1, Config.lastRow, Config.rows] at hr
  simp only [List.mem_range, Config.rowBytes, Config.cols, Config.cellBytes] at hb
  exact copyByte_bufferOnly (by omega) (by omega) (by omega)

theorem copyTxns_append (old : Nat → Byte) (r : Nat) (xs ys : List Nat) :
    copyTxns old r (xs ++ ys) = copyTxns old r xs ++ copyTxns old r ys := by simp [copyTxns]

/-- The copies of a row depend on the buffer only through that row. -/
theorem copyTxns_congr {old new : Nat → Byte} {r : Nat} {bs : List Nat}
    (h : ∀ b ∈ bs, new (rowByteAddr r b) = old (rowByteAddr r b)) : copyTxns new r bs = copyTxns old r bs := by
  induction bs with
  | nil => rfl
  | cons b bs ih =>
    have hb := h b (by simp)
    have hbs := ih fun c hc => h c (by simp [hc])
    simp only [copyTxns, List.flatMap_cons] at hbs ⊢
    rw [hb, hbs]

/-- The first `n` bytes of row `r` have moved one row up. -/
theorem copyRow_prefix {r : Nat} (h1 : 1 ≤ r) (hr : r < 25) (s : State) {n : Nat} (hn : n ≤ 160) :
    BufferRun (forEach (copyByte r) (List.range n) s) s (copyTxns (Memory.read s.vram) r (List.range n))
      (fun a => if rowByteAddr (r - 1) 0 ≤ a ∧ a < rowByteAddr (r - 1) n then Memory.read s.vram (a + 160)
        else Memory.read s.vram a) := by
  induction n with
  | zero =>
    refine (BufferRun.pure s).congr (by simp [copyTxns]) fun a => (if_neg ?_).symm
    omega
  | succ n ih =>
    rw [List.range_succ, forEach_snoc, copyTxns_append]
    refine (ih (by omega)).seq fun s1 hs1 => ?_
    refine (copyByte_run h1 hr (by omega) s1).congr (copyTxns_congr fun b hb => ?_) fun a => ?_
    · rw [hs1, if_neg]
      simp only [List.mem_singleton] at hb
      simp only [rowByteAddr_eq]
      omega
    · simp only [hs1]
      have e0 := rowByteAddr_eq (r - 1) 0
      have e1 := rowByteAddr_eq (r - 1) n
      have e2 := rowByteAddr_eq (r - 1) (n + 1)
      have e3 := rowByteAddr_eq r n
      split_ifs <;> first | rfl | (exfalso; omega) | (congr 1; omega)

/-- Row `r` has moved one row up (R141 (a)). -/
theorem copyRow_run {r : Nat} (h1 : 1 ≤ r) (hr : r < 25) (s : State) :
    BufferRun (copyRow r s) s (copyTxns (Memory.read s.vram) r (List.range 160))
      (fun a => if rowByteAddr (r - 1) 0 ≤ a ∧ a < rowByteAddr r 0 then Memory.read s.vram (a + 160)
        else Memory.read s.vram a) := by
  refine (copyRow_prefix h1 hr s (Nat.le_refl 160)).congr rfl fun a => ?_
  have : rowByteAddr (r - 1) 160 = rowByteAddr r 0 := by
    rw [rowByteAddr_eq, rowByteAddr_eq]; omega
  rw [this]

theorem shiftTxns_append (old : Nat → Byte) (xs ys : List Nat) :
    shiftTxns old (xs ++ ys) = shiftTxns old xs ++ shiftTxns old ys := by simp [shiftTxns]

/-- Rows 1 to `k` have moved one row up, in ascending order: no row is read after it is overwritten (R143). -/
theorem shiftRows_prefix (s : State) {k : Nat} (hk : k ≤ 24) :
    BufferRun (forEach copyRow (List.range' 1 k) s) s (shiftTxns (Memory.read s.vram) (List.range' 1 k))
      (fun a => if rowByteAddr 0 0 ≤ a ∧ a < rowByteAddr k 0 then Memory.read s.vram (a + 160)
        else Memory.read s.vram a) := by
  induction k with
  | zero =>
    refine (BufferRun.pure s).congr (by simp [shiftTxns]) fun a => (if_neg ?_).symm
    omega
  | succ k ih =>
    rw [List.range'_1_concat, forEach_snoc, shiftTxns_append]
    refine (ih (by omega)).seq fun s1 hs1 => ?_
    refine (copyRow_run (by omega) (by omega) s1).congr ?_ fun a => ?_
    · simp only [shiftTxns, List.flatMap_cons, List.flatMap_nil, List.append_nil, Config.rowBytes, Config.cols,
        Config.cellBytes]
      refine copyTxns_congr fun b _ => ?_
      rw [hs1, if_neg]
      simp only [rowByteAddr_eq]
      omega
    · simp only [hs1]
      have e0 := rowByteAddr_eq 0 0
      have e1 := rowByteAddr_eq k 0
      have e2 := rowByteAddr_eq (k + 1) 0
      have e3 := rowByteAddr_eq (1 + k - 1) 0
      have e4 := rowByteAddr_eq (1 + k) 0
      split_ifs <;> first | rfl | (exfalso; omega)

theorem blankCell_run {c : Nat} (hc : c < 80) (s : State) :
    BufferRun (blankCell c s) s (blankTxns [c])
      (fun a => if a = cellAddr (offsetOf c 24) then Config.blankChar else Memory.read s.vram a) := by
  have h : inBuffer (cellAddr (offsetOf c Config.lastRow)) = true :=
    inBuffer_cellAddr (by rw [offsetOf_eq]; simp only [Config.lastRow, Config.rows]; omega)
  obtain ⟨m, he, hm, hw⟩ := BufferRun.write h Config.blankChar s
  exact ⟨m, by simp only [blankCell, he, Run.andThen_next, Config.scrollAttrPolicy]; rfl, hm, hw⟩

/-- The blanking of the last row depends on the buffer alone. -/
theorem blankLastRow_bufferOnly : BufferOnly blankLastRow := by
  refine BufferOnly.loop fun c hc => ?_
  simp only [List.mem_range, Config.cols] at hc
  have h : inBuffer (cellAddr (offsetOf c Config.lastRow)) = true :=
    inBuffer_cellAddr (by rw [offsetOf_eq]; simp only [Config.lastRow, Config.rows]; omega)
  exact (BufferOnly.write h Config.blankChar).seq BufferOnly.pure

/-- The first `n` characters of the last row are blank; attributes are as before (R144). -/
theorem blankLastRow_prefix (s : State) {n : Nat} (hn : n ≤ 80) :
    BufferRun (forEach blankCell (List.range n) s) s (blankTxns (List.range n))
      (fun a => if cellAddr 1920 ≤ a ∧ a < cellAddr (1920 + n) ∧ (a - Config.vbase) % 2 = 0 then Config.blankChar
        else Memory.read s.vram a) := by
  induction n with
  | zero =>
    refine (BufferRun.pure s).congr (by simp [blankTxns]) fun a => (if_neg ?_).symm
    rw [Nat.add_zero]; omega
  | succ n ih =>
    rw [List.range_succ, forEach_snoc]
    refine ((ih (by omega)).seq fun s1 hs1 => blankCell_run (by omega) s1 |>.congr rfl fun a => ?_).congr
      (by simp [blankTxns]) fun _ => rfl
    simp only [hs1]
    have hv : Config.vbase = 753664 := rfl
    have e0 := cellAddr_eq 1920
    have e1 := cellAddr_eq (1920 + n)
    have e2 := cellAddr_eq (1920 + (n + 1))
    have e3 := cellAddr_eq (offsetOf n 24)
    have e4 := offsetOf_eq n 24
    split_ifs <;> first | rfl | (exfalso; omega)

theorem enter_bufferRun {f : Fsm} {r : Run State} {s : State} {txns : List Txn} {after : Nat → Byte}
    (h : BufferRun r (enter f s) txns after) :
    ∃ m, r = .next { s with vram := m, busLog := txns.reverse ++ s.busLog, fsm := f } ∧
      (∀ a, Memory.read m a = after a) ∧ (Memory.wf s.vram → Memory.wf m) := h

/-- An offset in the grid: no transaction, and the offset is returned (R140). -/
theorem scroll_inGrid {o : Half} (h : inGrid o.toNat = true) (s : State) : scroll o s = .next (o, s) := by
  simp [scroll, h]

/-- An offset outside the grid: one scroll, with everything it does (R141, R145, R147). -/
theorem scroll_outsideGrid {o : Half} (h : inGrid o.toNat = false) (s : State) :
    ∃ m, scroll o s = .next (BitVec.ofNat 16 (o.toNat - Config.cols),
        { s with vram := m, busLog := (scrollTxns (Memory.read s.vram)).reverse ++ s.busLog, fsm := .exec }) ∧
      (∀ a, Memory.read m a = scrolledByte (Memory.read s.vram) a) ∧ (Memory.wf s.vram → Memory.wf m) := by
  obtain ⟨m1, he1, hm1, hw1⟩ := enter_bufferRun (shiftRows_prefix (enter .scCopy s) (Nat.le_refl 24))
  have e1 : shiftRows (enter .scCopy s) = _ := he1
  obtain ⟨m2, he2, hm2, hw2⟩ := enter_bufferRun (blankLastRow_prefix (enter .scBlank
    { s with
      vram := m1
      busLog := (shiftTxns (Memory.read s.vram) (List.range' 1 24)).reverse ++ s.busLog
      fsm := .scCopy }) (Nat.le_refl 80))
  refine ⟨m2, ?_, fun a => ?_, fun hw => hw2 (hw1 hw)⟩
  · simp only [scroll, h, Bool.false_eq_true, if_false, e1, Run.andThen_next, enter_vram]
    refine (congrArg (Run.andThen · _) he2).trans ?_
    simp [enter, scrollTxns]
  · simp only [hm2, enter_vram, hm1, scrolledByte_eq]
    have hv : Config.vbase = 753664 := rfl
    have e0 := cellAddr_eq 1920
    have e1 := cellAddr_eq (1920 + 80)
    have e2 := rowByteAddr_eq 0 0
    have e3 := rowByteAddr_eq 24 0
    split_ifs <;> first | rfl | (exfalso; omega)

end Sys2Proof.Machine
end

