-- ==== Sys2Proof/Laws/CharWrite.lean ====
section
/-! SUPPORT. What the character path (R160) and the fill of CLEAR (R167) do. -/

namespace Sys2Proof.Machine

/-- Both bytes of a cell of the grid. -/
theorem writeCell_run {o : Nat} (h : o < 2000) (ch attr : Byte) (s : State) :
    BufferRun (writeCell o ch attr s) s (cellTxns o ch attr)
      (fun a => if a = cellAddr o then ch else if a = attrAddr o then attr else Memory.read s.vram a) := by
  refine (BufferRun.write (inBuffer_cellAddr h) ch s).seq (t2 := [.memWrite (attrAddr o) attr]) fun s1 hs1 =>
    (BufferRun.write (inBuffer_attrAddr h) attr s1).congr rfl fun a => ?_
  simp only [hs1]
  have e0 := cellAddr_eq o
  have e1 := attrAddr_eq o
  split_ifs <;> first | rfl | (exfalso; omega)

theorem writeCell_bufferOnly {o : Nat} (h : o < 2000) (ch attr : Byte) : BufferOnly (writeCell o ch attr) :=
  (BufferOnly.write (inBuffer_cellAddr h) ch).seq (BufferOnly.write (inBuffer_attrAddr h) attr)

/-- The fill of CLEAR depends on the buffer alone. -/
theorem clearCells_bufferOnly : BufferOnly (forEach clearCell (List.range Config.cells)) := by
  refine BufferOnly.loop fun o ho => ?_
  simp only [List.mem_range, Config.cells, Config.rows, Config.cols] at ho
  exact writeCell_bufferOnly (by omega) _ _

/-- The drawing of a character (R160): `OFF` moves for a newline, the cell is written for any other character. -/
theorem drawChar_eq {o : Half} (h : inGrid o.toNat = true) (ch attr : Byte) (s : State) :
    ∃ m, drawChar ch attr (setOff o s) = .next
        { s with
          off := if ch = Config.newlineChar then BitVec.ofNat 16 (lineEnd o.toNat) else o
          vram := m
          busLog := (if ch = Config.newlineChar then [] else cellTxns o.toNat ch attr).reverse ++ s.busLog } ∧
      (∀ a, Memory.read m a = drawnByte (Memory.read s.vram) o.toNat ch attr a) ∧ (Memory.wf s.vram → Memory.wf m) := by
  by_cases hc : ch = Config.newlineChar
  · exact ⟨s.vram, by simp only [drawChar, hc, if_pos]; rfl, fun a => by simp only [drawnByte, if_pos hc], id⟩
  · obtain ⟨m, he, hm, hw⟩ := writeCell_run (inGrid_iff.1 h) ch attr (setOff o s)
    refine ⟨m, ?_, fun a => ?_, hw⟩
    · simp only [drawChar, if_neg hc]
      exact he
    · simp only [hm, drawnByte, if_neg hc, setOff_vram]

/-- `OFF <- Scroll(OFF)` (R141): a no-op on an offset of the grid, one scroll on any other. -/
theorem scrollOff_eq (s : State) :
    ∃ m, scrollOff s = .next
        { s with
          off := if inGrid s.off.toNat then s.off else BitVec.ofNat 16 (s.off.toNat - Config.cols)
          fsm := if inGrid s.off.toNat then s.fsm else .exec
          vram := m
          busLog := (if inGrid s.off.toNat then [] else scrollTxns (Memory.read s.vram)).reverse ++ s.busLog } ∧
      (∀ a, Memory.read m a = if inGrid s.off.toNat then Memory.read s.vram a else scrolledByte (Memory.read s.vram) a) ∧
      (Memory.wf s.vram → Memory.wf m) := by
  cases h : inGrid s.off.toNat with
  | true => exact ⟨s.vram, by simp [scrollOff, scroll_inGrid h, setOff], fun a => rfl, id⟩
  | false =>
    obtain ⟨m, he, hm, hw⟩ := scroll_outsideGrid h s
    exact ⟨m, by simp [scrollOff, he, setOff], fun a => by simp [hm], hw⟩

/-- The offset after a character in the grid's row needs no more than 16 bits (R26). -/
theorem advanced_lt {o : Nat} (h : inGrid o = true) (ch : Byte) : advanced o ch < 65536 := by
  rw [inGrid_iff] at h
  simp only [advanced, lineEnd_eq]
  split <;> omega

/-- `PutCharAt` from an offset of the grid: the whole effect of R160. -/
theorem putCharAt_eq {o : Half} (h : inGrid o.toNat = true) (ch attr : Byte) (s : State) :
    ∃ m, putCharAt o ch attr s = .next
        { s with
          result := BitVec.ofNat 32 (charOffset o.toNat ch)
          off := BitVec.ofNat 16 (charOffset o.toNat ch)
          fsm := .exec
          crtcIndex := Config.curLoIndex
          curHi := hiByte (BitVec.ofNat 16 (charOffset o.toNat ch))
          curLo := loByte (BitVec.ofNat 16 (charOffset o.toNat ch))
          vram := m
          busLog := (charTxns (Memory.read s.vram) o.toNat ch attr).reverse ++ s.busLog } ∧
      (∀ a, Memory.read m a = charByte (Memory.read s.vram) o.toNat ch attr a) ∧ (Memory.wf s.vram → Memory.wf m) := by
  obtain ⟨m1, he1, hm1, hw1⟩ := drawChar_eq h ch attr s
  have hadv := advanced_lt h ch
  have hoff : (advance
      { s with
        off := if ch = Config.newlineChar then BitVec.ofNat 16 (lineEnd o.toNat) else o
        vram := m1
        busLog := (if ch = Config.newlineChar then [] else cellTxns o.toNat ch attr).reverse ++ s.busLog }) =
      { s with
        off := BitVec.ofNat 16 (advanced o.toNat ch)
        vram := m1
        busLog := (if ch = Config.newlineChar then [] else cellTxns o.toNat ch attr).reverse ++ s.busLog } := by
    by_cases hc : ch = Config.newlineChar
    · have : lineEnd o.toNat % 65536 = lineEnd o.toNat := by
        rw [inGrid_iff] at h; rw [lineEnd_eq]; omega
      simp only [advance, setOff, advanced, if_pos hc, BitVec.toNat_ofNat, Nat.reducePow, this]
    · simp only [advance, setOff, advanced, if_neg hc]
  obtain ⟨m2, he2, hm2, hw2⟩ := scrollOff_eq
    { s with
      off := BitVec.ofNat 16 (advanced o.toNat ch)
      vram := m1
      busLog := (if ch = Config.newlineChar then [] else cellTxns o.toNat ch attr).reverse ++ s.busLog }
  have htn : (BitVec.ofNat 16 (advanced o.toNat ch)).toNat = advanced o.toNat ch := by
    rw [BitVec.toNat_ofNat]; omega
  have hread : Memory.read m1 = drawnByte (Memory.read s.vram) o.toNat ch attr := funext hm1
  refine ⟨m2, ?_, fun a => ?_, fun hw => hw2 (hw1 hw)⟩
  · simp only [putCharAt, he1, Run.andThen_next, hoff, he2, cursorWrite_eq, setResult]
    simp only [htn, hread, charTxns, charScrolls, charOffset]
    by_cases hg : inGrid (advanced o.toNat ch) = true
    · simp [hg, BitVec.setWidth_ofNat_of_le_of_lt, hadv]
    · have hlt' : advanced o.toNat ch - 80 < 65536 := by omega
      simp [hg, BitVec.setWidth_ofNat_of_le_of_lt, hlt']
  · simp only [hm2, htn, hread, charByte, charScrolls]
    by_cases hg : inGrid (advanced o.toNat ch) = true <;> simp [hg]

/-- The first `n` cells are cleared. -/
theorem clearCells_run (s : State) {n : Nat} (hn : n ≤ 2000) :
    BufferRun (forEach clearCell (List.range n) s) s (fillTxns (List.range n))
      (fun a => if cellAddr 0 ≤ a ∧ a < cellAddr n then
          (if (a - Config.vbase) % 2 = 0 then Config.blankChar else Config.defaultAttr)
        else Memory.read s.vram a) := by
  induction n with
  | zero =>
    refine (BufferRun.pure s).congr (by simp [fillTxns]) fun a => (if_neg ?_).symm
    omega
  | succ n ih =>
    rw [List.range_succ, forEach_snoc]
    refine ((ih (by omega)).seq fun s1 hs1 =>
      (writeCell_run (by omega) Config.blankChar Config.defaultAttr s1).congr rfl fun a => ?_).congr
      (by simp [fillTxns]) fun _ => rfl
    simp only [hs1]
    have hv : Config.vbase = 753664 := rfl
    have e0 := cellAddr_eq 0
    have e1 := cellAddr_eq n
    have e2 := cellAddr_eq (n + 1)
    have e3 := attrAddr_eq n
    split_ifs <;> first | rfl | (exfalso; omega)

/-- CLEAR: the whole effect of R167. -/
theorem execClear_eq (s : State) :
    ∃ m, execClear s = .next
        { s with
          fsm := .idle
          crtcIndex := Config.curLoIndex
          curHi := 0
          curLo := 0
          vram := m
          busLog := (fillTxns (List.range Config.cells) ++ cursorWriteTxns 0).reverse ++ s.busLog } ∧
      (∀ a, Memory.read m a = clearedByte (Memory.read s.vram) a) ∧ (Memory.wf s.vram → Memory.wf m) := by
  obtain ⟨m, he, hm, hw⟩ := enter_bufferRun (clearCells_run (enter .clFill s) (Nat.le_refl 2000))
  refine ⟨m, ?_, fun a => ?_, hw⟩
  · have e : forEach clearCell (List.range Config.cells) (enter .clFill s) = _ := he
    simp only [execClear, e, Run.andThen_next, cursorWrite_eq, complete]
    simp [enter, cursorWriteTxns, offsetOf, hiByte, loByte]
  · have hc : cellAddr 0 ≤ a ∧ a < cellAddr 2000 ↔ inBuffer a = true := by
      rw [inBuffer_iff, cellAddr_eq, cellAddr_eq]
    simp only [hm, enter_vram, clearedByte, hc]

end Sys2Proof.Machine
end

