-- ==== Sys2Proof/Laws/Decode.lean ====
section
/-! SUPPORT. The decoder's fields as natural numbers: the form in which `omega` reads a command word. -/

namespace Sys2Proof

/-- A field is a quotient and a remainder of the word. -/
theorem field_toNat (w : Word) (lo len : Nat) : (field w lo len).toNat = w.toNat / 2 ^ lo % 2 ^ len := by
  simp [field, BitVec.extractLsb'_toNat, Nat.shiftRight_eq_div_pow]

theorem opOf_eq (w : Word) : opOf w = w.toNat / 2 ^ 28 % 16 := field_toNat w 28 4

theorem rowField_eq (w : Word) : rowField w = w.toNat / 2 ^ 23 % 32 := field_toNat w 23 5

theorem colField_eq (w : Word) : colField w = w.toNat / 2 ^ 16 % 128 := field_toNat w 16 7

theorem offField_toNat (w : Word) : (offField w).toNat = w.toNat % 65536 := by
  simp [offField, field_toNat]

theorem attrField_toNat (w : Word) : (attrField w).toNat = w.toNat / 256 % 256 := field_toNat w 8 8

theorem chField_toNat (w : Word) : (chField w).toNat = w.toNat % 256 := by
  simp [chField, field_toNat]

theorem reservedK_iff (w : Word) : reservedK w = true ↔ w.toNat % 65536 = 0 := by
  simp [reservedK, ← BitVec.toNat_inj, field_toNat]

theorem reservedBC_iff (w : Word) : reservedBC w = true ↔ w.toNat / 65536 % 4096 = 0 := by
  simp [reservedBC, ← BitVec.toNat_inj, field_toNat]

theorem reservedN_iff (w : Word) : reservedN w = true ↔ w.toNat % 2 ^ 28 = 0 := by
  simp [reservedN, ← BitVec.toNat_inj, field_toNat]

/-- A command of a format with a reserved field is decoded exactly when that field is zero. -/
theorem unlessReserved_eq_ok {z : Bool} {i j : Instr} : unlessReserved z i = .ok j ↔ z = true ∧ i = j := by
  cases z <;> simp [unlessReserved]

end Sys2Proof
end

