-- ==== Sys2Proof/Laws/PerInstr.lean ====
section
/-! SUPPORT. A fact about every command, one lemma a constructor: its word carries the opcode of its row of R78. -/

namespace Sys2Proof.Laws.OpField

/-- A well-formed command's word has, in bits 31:28, the opcode its row of R78 has there (R71, R78). -/
def Statement (i : Instr) : Prop := i.WellFormed = true → opOf (encode i) = opOf i.opcodeRow.matchWord

theorem offsetOf (col row : Nat) : Statement (.offsetOf col row) := by
  intro h
  simp only [Instr.WellFormed, colFits, rowFits, Bool.and_eq_true, decide_eq_true_eq] at h
  refine Eq.trans ?_ (show 0x1 = opOf (0x10000000 : Word) by decide)
  simp only [encode, formatK, opOf_eq, BitVec.toNat_ofNat]
  omega

theorem rowOf (off : Half) : Statement (.rowOf off) := by
  intro _
  have := off.isLt
  refine Eq.trans ?_ (show 0x2 = opOf (0x20000000 : Word) by decide)
  simp only [encode, formatB, opOf_eq, BitVec.toNat_ofNat]
  omega

theorem cellAddr (off : Half) : Statement (.cellAddr off) := by
  intro _
  have := off.isLt
  refine Eq.trans ?_ (show 0x3 = opOf (0x30000000 : Word) by decide)
  simp only [encode, formatB, opOf_eq, BitVec.toNat_ofNat]
  omega

theorem getCursor : Statement .getCursor := fun _ => rfl

theorem setCursor (off : Half) : Statement (.setCursor off) := by
  intro _
  have := off.isLt
  refine Eq.trans ?_ (show 0x5 = opOf (0x50000000 : Word) by decide)
  simp only [encode, formatB, opOf_eq, BitVec.toNat_ofNat]
  omega

theorem scroll (off : Half) : Statement (.scroll off) := by
  intro _
  have := off.isLt
  refine Eq.trans ?_ (show 0x6 = opOf (0x60000000 : Word) by decide)
  simp only [encode, formatB, opOf_eq, BitVec.toNat_ofNat]
  omega

theorem putc (ch attr : Byte) : Statement (.putc ch attr) := by
  intro _
  have := ch.isLt
  have := attr.isLt
  refine Eq.trans ?_ (show 0x7 = opOf (0x70000000 : Word) by decide)
  simp only [encode, formatC, opOf_eq, BitVec.toNat_ofNat]
  omega

theorem putcAt (ch attr : Byte) (col row : Nat) : Statement (.putcAt ch attr col row) := by
  intro h
  have := ch.isLt
  have := attr.isLt
  simp only [Instr.WellFormed, colFits, rowFits, Bool.and_eq_true, decide_eq_true_eq] at h
  refine Eq.trans ?_ (show 0x8 = opOf (0x80000000 : Word) by decide)
  simp only [encode, formatA, opOf_eq, BitVec.toNat_ofNat]
  omega

theorem clear : Statement .clear := fun _ => rfl

end Sys2Proof.Laws.OpField
end

