-- ==== Sys2Proof/Tests/Slice0.lean ====
section
/-! SUPPORT. Tests: expected values from the spec (95_test_vectors, and the rules named), and a witness for the hypotheses of
each statement. -/

namespace Sys2Proof.Tests

open Sys2Proof.Machine

/-! ### Helpers -/

/-- A small idle state: the cursor at `cur`, `RESULT` = 5, an index latch left by other software, nothing written. -/
def at_ (cur : Half) (host : List HostAction := []) : State where
  result := 5
  status := 0
  faultCmd := 0
  faultVal := 0
  off := 9
  fsm := .idle
  crtcIndex := 0x0A
  curHi := hiByte cur
  curLo := loByte cur
  vram := []
  busLog := []
  host := host
  draws := 1

/-- `at_ cur` halted by the submitted zero word (V-FX1). -/
def haltedAt (cur : Half) (host : List HostAction) : State :=
  { at_ cur host with fsm := .halted, status := 0x12 }

/-- The run ends in a next state that meets `p`. -/
def endsWith (r : Run State) (p : State → Bool) : Bool :=
  match r with
  | .next t => p t
  | .fault _ => false
  | .refused _ => false

/-- One step on one submitted word. -/
def stepOn (w : Word) (cur : Half) : Run State := step (at_ cur [.submit w])

/-- The written byte at `a`. -/
def written (t : State) (a : Nat) : Option Byte := Memory.lookup t.vram a

/-! ### Well-formedness: each check refuses -/

theorem test_offsetOf_col_too_wide : Instr.WellFormed (.offsetOf 128 0) = false := by decide

theorem test_offsetOf_row_too_wide : Instr.WellFormed (.offsetOf 0 32) = false := by decide

theorem test_putcAt_col_too_wide : Instr.WellFormed (.putcAt 0 0 128 0) = false := by decide

theorem test_putcAt_row_too_wide : Instr.WellFormed (.putcAt 0 0 0 32) = false := by decide

theorem test_widest_operands_fit : Instr.WellFormed (.putcAt 255 255 127 31) = true := by decide

/-- R9, R43: the default attribute is green (2) on black (0). -/
theorem test_default_attr : packAttr 0 2 = Config.defaultAttr := by decide

/-! ### Decoding: one word a constructor, written out from the formats of R72 to R76 -/

/-- V-OF9: op 0001, row 11111, col 1111111. -/
theorem test_decode_offsetOf : decode 0b0001_11111_1111111_0000000000000000 = .ok (.offsetOf 127 31) := by rfl

theorem test_decode_rowOf : decode 0b0010_000000000000_0000011111001111 = .ok (.rowOf 1999) := by rfl

theorem test_decode_cellAddr : decode 0b0011_000000000000_0000000001010001 = .ok (.cellAddr 81) := by rfl

theorem test_decode_getCursor : decode 0b0100_0000000000000000000000000000 = .ok .getCursor := by rfl

theorem test_decode_setCursor : decode 0b0101_000000000000_0001001000110100 = .ok (.setCursor 0x1234) := by rfl

theorem test_decode_scroll : decode 0b0110_000000000000_0000100000011111 = .ok (.scroll 2079) := by rfl

theorem test_decode_putc : decode 0b0111_000000000000_00011111_00000000 = .ok (.putc 0x00 0x1F) := by rfl

/-- V-PA2: row 24, col 79, attr 2, 'Z'. -/
theorem test_decode_putcAt : decode 0b1000_11000_1001111_00000010_01011010 = .ok (.putcAt 0x5A 0x02 79 24) := by rfl

theorem test_decode_clear : decode 0b1001_0000000000000000000000000000 = .ok .clear := by rfl

theorem test_decode_reserved_op : decode 0xA0000000 = .error .reservedOpcode := by rfl

theorem test_decode_reserved_field_K : decode 0x10000001 = .error .reservedField := by rfl

theorem test_decode_reserved_field_B : decode 0x30010000 = .error .reservedField := by rfl

theorem test_decode_reserved_field_C : decode 0x70010241 = .error .reservedField := by rfl

theorem test_decode_reserved_field_N : decode 0x90000001 = .error .reservedField := by rfl

theorem test_encode_putcAt : encode (.putcAt 0x5A 0x02 79 24) = 0x8C4F025A := by rfl

theorem test_decodeTableWord : decodeTableWord 32 0x10810000 = some (.offsetOf 1 1) := by rfl

/-! ### Commands: one step each, on the vectors of 95_test_vectors -/

/-- V-OF8: column 80 aliases into the next row. -/
theorem test_offset_of_aliases : endsWith (stepOn 0x10500000 0) (fun t => t.result == 80 && t.fsm == .idle) = true := by
  decide

/-- V-RO4. -/
theorem test_row_of_last : endsWith (stepOn 0x200007CF 0) (fun t => t.result == 24) = true := by decide

/-- V-CA5: an address above the buffer, no access, no fault. -/
theorem test_cell_addr_off_grid :
    endsWith (stepOn 0x3000FFFF 0) (fun t => t.result == 0x000D7FFE && t.busLog == []) = true := by decide

/-- V-CU6. -/
theorem test_get_cursor : endsWith (stepOn 0x40000000 0x07CF) (fun t =>
    t.result == 1999 && t.crtcIndex == 0x0F && t.busLog.reverse ==
      [.portWrite 0x03D4 0x0E, .portRead 0x03D5 0x07, .portWrite 0x03D4 0x0F, .portRead 0x03D5 0xCF]) = true := by
  decide

/-- V-CU7. -/
theorem test_set_cursor : endsWith (stepOn 0x50000780 0) (fun t =>
    t.result == 5 && t.curHi == 0x07 && t.curLo == 0x80 && t.busLog.reverse ==
      [.portWrite 0x03D4 0x0E, .portWrite 0x03D5 0x07, .portWrite 0x03D4 0x0F, .portWrite 0x03D5 0x80]) = true := by
  decide

/-- V-SC2: the last offset of the grid does not scroll. -/
theorem test_scroll_below : endsWith (stepOn 0x600007CF 0) (fun t => t.result == 1999 && t.busLog == []) = true := by
  decide

/-- V-SC5: one scroll only, the offset stays outside the grid. -/
theorem test_scroll_2080 : ∃ t, execScroll 2080 (at_ 5) = .next t ∧ t.result = 2000 ∧ t.cursor = 5 := by
  obtain ⟨m, h, -, -⟩ := scroll_outsideGrid (o := 2080) (by decide) (setOff 2080 (at_ 5))
  have e : scroll (setOff 2080 (at_ 5)).off (setOff 2080 (at_ 5)) = _ := h
  simp only [execScroll, scrollOff, e, Run.andThen_next]
  exact ⟨_, rfl, rfl, show (at_ 5).cursor = 5 by decide⟩

/-- V-PC1, with its trace. -/
theorem test_putc_trace : endsWith (stepOn 0x70000241 0) (fun t =>
    t.result == 1 && t.cursor == 1 && t.busLog.reverse ==
      [.portWrite 0x03D4 0x0E, .portRead 0x03D5 0x00, .portWrite 0x03D4 0x0F, .portRead 0x03D5 0x00,
       .memWrite 0x000B8000 0x41, .memWrite 0x000B8001 0x02,
       .portWrite 0x03D4 0x0E, .portWrite 0x03D5 0x00, .portWrite 0x03D4 0x0F, .portWrite 0x03D5 0x01]) = true := by
  decide

/-- V-PC2: a newline at column 79 moves one line, not two. -/
theorem test_putc_newline_col79 :
    endsWith (stepOn 0x7000020A 79) (fun t => t.cursor == 80 && t.vram == []) = true := by decide

/-- V-PA3: both bytes of the cell, and the cursor on the next row. -/
theorem test_putc_at : endsWith (stepOn 0x804F1F51 0) (fun t =>
    written t (0x000B8000 + 158) == some 0x51 && written t (0x000B8000 + 159) == some 0x1F &&
      t.cursor == 80) = true := by decide

/-- V-PA6: column 80 faults although its offset is in the grid. -/
theorem test_putc_at_coord_range : endsWith (stepOn 0x80500241 3) (fun t =>
    t.status == 0x22 && t.faultCmd == 0x80500241 && t.faultVal == 0 && t.cursor == 3 && t.busLog == [] &&
      t.fsm == .halted) = true := by decide

/-- V-CL1: cell 0 and the last cell, the cursor, `RESULT` unchanged. -/
theorem test_clear : ∃ t, execClear (enter .exec (at_ 0xFFFF)) = .next t ∧ t.cursor = 0 ∧ t.result = 5 ∧
    Memory.read t.vram 0x000B8000 = 0x20 ∧ Memory.read t.vram 0x000B8F9F = 0x02 := by
  obtain ⟨m, h, hm, -⟩ := execClear_eq (enter .exec (at_ 0xFFFF))
  exact ⟨_, h, show joinBytes 0 0 = 0 by decide, rfl, (hm _).trans rfl, (hm _).trans rfl⟩

/-! ### Faults and reset -/

/-- V-PC10. -/
theorem test_putc_out_of_grid : endsWith (stepOn 0x70000241 2000) (fun t =>
    t.status == 0x32 && t.faultCmd == 0x70000241 && t.faultVal == 0x07D0 && t.result == 5 && t.vram == [] &&
      t.busLog.length == 4) = true := by decide

/-- V-FX1: the zero word. -/
theorem test_zero_word_faults : endsWith (stepOn 0x00000000 0) (fun t =>
    t.statusView == 0x12 && t.faultCmd == 0 && t.fsm == .halted) = true := by decide

/-- V-FX4: a word submitted in `HALTED` is not taken. -/
theorem test_halted_takes_no_word : step (haltedAt 0 [.submit 0x90000000]) = .fault .halted := by rfl

/-- V-FX5: reset leaves `HALTED`; the cursor stays. -/
theorem test_reset_leaves_halted : endsWith (step (haltedAt 0x1234 [.reset])) (fun t =>
    t.status == 0 && t.result == 0 && t.fsm == .idle && t.cursor == 0x1234) = true := by decide

/-- After reset, whatever the unspecified cursor, a PUTC ends in a next state. -/
theorem test_putc_runs_after_reset : ∃ t, step (State.reset.withFetchWord 32 0x70000241) = .next t := by
  show ∃ t, execPutc 0x41 0x02 (enter .exec State.reset) = .next t
  rw [execPutc, cursorRead_eq, Run.andThen_next]
  split
  · next h =>
    obtain ⟨m, he, -, -⟩ := putCharAt_eq h 0x41 0x02
      { enter .exec State.reset with
        crtcIndex := Config.curLoIndex
        fsm := .exec
        busLog := (cursorReadTxns (enter .exec State.reset).cursor).reverse ++ (enter .exec State.reset).busLog }
    exact ⟨_, congrArg (Run.andThen · _) he⟩
  · exact ⟨_, rfl⟩

/-- Any other command's word runs as the first after reset. -/
theorem test_putc_at_runs_after_reset :
    endsWith (step (State.reset.withFetchWord 32 0x80000241)) (fun t => t.result == 1 && t.cursor == 1) = true := by
  decide

/-! ### The assembler (R83, R84; L1-4) -/

theorem test_assemble_print_at : assembleText "print_at \"AB\\nC\", 0, 0" =
    some [0x50000000, 0x70000241, 0x70000242, 0x7000020A, 0x70000243] := by decide

theorem test_assemble_putc_at : assembleText "putc_at 'Z', 2, 79, 24" = some [0x8C4F025A] := by decide

theorem test_assemble_default_attr : assembleText "putc '\\n'" = some [0x7000020A] := by decide

theorem test_assemble_refuses : assembleText "set_cursor 0x10000" = none ∧ assembleText "print_at \"x\", 80, 0" = none := by
  decide

theorem test_assemble_negative_coordinate : assembleText "print_at \"x\", -1, -1" = some [0x70000278] := by decide

/-! ### Witnesses: states and operands that meet the hypotheses of the statements -/

/-- A well-formed command at the edge of its fields. -/
theorem witness_wellFormed : Instr.WellFormed (.offsetOf 127 31) = true ∧ Instr.WellFormed (.putcAt 0 255 79 24) = true := by
  decide

/-- A submitted word that selects a row, one that selects none, and one of a reserved opcode. -/
theorem witness_submits :
    (Submits 0x10810000 [] (at_ 0 [.submit 0x10810000]) ∧ decode 0x10810000 = .ok (.offsetOf 1 1) ∧
      ∃ r ∈ opcodeTable, r.selects 0x10810000 = true) ∧
    (Submits 0x10000001 [.reset] (at_ 0 [.submit 0x10000001, .reset]) ∧
      ∀ r ∈ opcodeTable, r.selects 0x10000001 = false) ∧
    Submits 0x00000000 [] (at_ 0 [.submit 0x00000000]) := by
  refine ⟨⟨⟨rfl, rfl⟩, rfl, by decide⟩, ⟨⟨rfl, rfl⟩, by decide⟩, ⟨rfl, rfl⟩⟩

/-- Two rows, each selected. -/
theorem witness_rows :
    Instr.opcodeRow (.putcAt 0 0 0 0) ∈ opcodeTable ∧ (Instr.opcodeRow (.putcAt 0 0 0 0)).selects 0x8FFFFFFF = true ∧
    Instr.opcodeRow .clear ∈ opcodeTable ∧ (Instr.opcodeRow .clear).selects 0x90000000 = true := by decide

/-- Reserved opcodes at the edges of their ranges. -/
theorem witness_reserved_opcodes :
    ((0x0FFFFFFF : Word).extractLsb' 28 4).toNat = 0 ∧ 0xA ≤ ((0xA0000000 : Word).extractLsb' 28 4).toNat ∧
    0xA ≤ ((0xFFFFFFFF : Word).extractLsb' 28 4).toNat := by decide

/-- A defined opcode with one reserved bit set, for each of the three clauses. -/
theorem witness_reserved_fields :
    (((0x10008000 : Word).extractLsb' 28 4).toNat = 1 ∧ (0x10008000 : Word).extractLsb' 0 16 ≠ 0) ∧
    (((0x78000000 : Word).extractLsb' 28 4).toNat ∈ [0x2, 0x3, 0x5, 0x6, 0x7] ∧
      (0x78000000 : Word).extractLsb' 16 12 ≠ 0) ∧
    (((0x98000000 : Word).extractLsb' 28 4).toNat ∈ [0x4, 0x9] ∧ (0x98000000 : Word).extractLsb' 0 28 ≠ 0) := by decide

/-- A halted block that meets a word, and one that is reset; the halted state meets `SequencerInv`. -/
theorem witness_halted :
    (haltedAt 0 [.submit 0x90000000]).fsm = .halted ∧ (haltedAt 0 [.submit 0x90000000]).host = .submit 0x90000000 :: [] ∧
    (∃ t, step (haltedAt 0 [.reset, .submit 0x40000000]) = .next t ∧ t.host = .submit 0x40000000 :: []) ∧
    SequencerInv (haltedAt 0 []) :=
  ⟨rfl, rfl, ⟨_, rfl, rfl⟩, .inr ⟨rfl, .inl ⟨by decide, rfl, ⟨.reservedOpcode, rfl⟩⟩⟩⟩

/-- An idle block with nothing submitted, which meets the three invariants; and a busy one for the host's read. -/
theorem witness_idle :
    (at_ 0).fsm = .idle ∧ (at_ 0).host = [] ∧ SequencerInv (at_ 0) ∧ BufferInv (at_ 0) ∧ BusInv (at_ 0) ∧
    (enter .exec (at_ 0)).fsm ≠ .idle ∧ (enter .exec (at_ 0)).fsm ≠ .halted :=
  ⟨rfl, rfl, .inl ⟨rfl, rfl, rfl, rfl⟩, Memory.wf_nil, by simp [BusInv, at_], by decide, by decide⟩

/-- A step from a state that meets the invariants: a fault is entered, so that each has something to say. -/
theorem witness_step : ∃ t, step (at_ 2000 [.submit 0x70000241]) = .next t ∧ t.fsm = .halted ∧ t.busLog ≠ [] :=
  ⟨_, rfl, rfl, by decide⟩

/-- A SET_CURSOR takes the cursor off the screen. -/
theorem witness_leaves_screen : CursorOnScreen (at_ 1999 [.submit 0x500007D0]) ∧
    ∃ t, step (at_ 1999 [.submit 0x500007D0]) = .next t ∧ ¬ CursorOnScreen t := by
  refine ⟨by unfold CursorOnScreen; decide, _, rfl, ?_⟩
  unfold CursorOnScreen
  decide

/-- Commands that end in `IDLE` and in `HALTED`, for the statements about what commands keep. -/
theorem witness_exec_next :
    (∃ t, exec .getCursor (at_ 7) = .next t ∧ t.fsm = .idle) ∧ (∃ t, exec (.setCursor 7) (at_ 7) = .next t) ∧
    (∃ t, exec (.putc 0x41 2) (at_ 0) = .next t ∧ t.fsm = .idle) ∧
    (∃ t, exec (.putcAt 0x41 2 80 0) (at_ 7) = .next t ∧ t.fsm = .halted) ∧
    (∃ t, exec (.putcAt 0x41 2 79 0) (at_ 7) = .next t ∧ t.fsm = .idle) ∧
    (∃ t, exec (.scroll 1999) (at_ 7) = .next t) ∧ (∃ t, exec (.offsetOf 1 1) (at_ 7) = .next t) ∧
    (∃ t, exec (.rowOf 1) (at_ 7) = .next t) ∧ (∃ t, exec (.cellAddr 1) (at_ 7) = .next t) ∧
    ∃ t, exec .clear (at_ 7) = .next t :=
  ⟨⟨_, rfl, rfl⟩, ⟨_, rfl⟩, ⟨_, rfl, rfl⟩, ⟨_, rfl, rfl⟩, ⟨_, rfl, rfl⟩, ⟨_, rfl⟩, ⟨_, rfl⟩, ⟨_, rfl⟩, ⟨_, rfl⟩,
    let ⟨_, h, _⟩ := execClear_eq (at_ 7)
    ⟨_, h⟩⟩

/-- Two words the host submits for the round trip. -/
theorem witness_round_trip :
    (at_ 0 [.submit (encode (.setCursor 0xFF00)), .submit (encode .getCursor)]).host =
      .submit (encode (.setCursor 0xFF00)) :: .submit (encode .getCursor) :: [] := rfl

/-- The first sub-state of each cursor sequence. -/
theorem witness_sub_states : (enter .s1 (at_ 7)).fsm = .s1 ∧ (enter .g1 (at_ 7)).fsm = .g1 := ⟨rfl, rfl⟩

/-- Operands at the edges of every range the statements name: the last offset of the grid, the first outside it; the last
in-range coordinate, the first columns and rows outside. -/
theorem witness_ranges :
    (1999 : Half).toNat < 2000 ∧ 2000 ≤ (2000 : Half).toNat ∧ 2000 ≤ (0xFFFF : Half).toNat ∧
    ((79 : Nat) < 80 ∧ (24 : Nat) < 25) ∧ ((80 : Nat) ≤ 80 ∨ (25 : Nat) ≤ 0) ∧ ((127 : Nat) < 128 ∧ (31 : Nat) < 32) ∧
    ((0x000B8F9F : Nat) ≤ 0x000B8F9F ∧ (0x000B8000 : Nat) ≤ 0x000B8F9F) := by decide

/-- Cursors at the edges of the cases of a character: below, at and beyond the last cell and the last row. -/
theorem witness_cursors :
    ((0x41 : Byte) ≠ 0x0A ∧ (at_ 1998).cursor.toNat < 1999) ∧ ((0x41 : Byte) ≠ 0x0A ∧ (at_ 1999).cursor.toNat = 1999) ∧
    (at_ 1919).cursor.toNat < 1920 ∧ (1920 ≤ (at_ 1920).cursor.toNat ∧ (at_ 1920).cursor.toNat < 2000) ∧
    2000 ≤ (at_ 2000).cursor.toNat := by decide

/-- A text with a zero byte in it, coordinates inside, outside and negative, for the pseudo-instructions. -/
theorem witness_pseudo :
    (0 : Byte) ∉ ([0x41, 0x42] : List Byte) ∧ ((0 : Int) ≤ 79 ∧ (79 : Int) < 80 ∧ (0 : Int) ≤ 24 ∧ (24 : Int) < 25) ∧
    ((80 : Int) ≤ 80 ∨ (25 : Int) ≤ 0) ∧ ((-1 : Int) < 0 ∨ (0 : Int) < 0) ∧
    AsmLine.expand (.print [0x41]) = some [.putc 0x41 2] := by decide

end Sys2Proof.Tests
end

section
/-! PROOFS. The word of a command is the word it was decoded from: a format's fields put together again (R72 to R77, R24). -/

namespace Sys2Proof

theorem formatK_fields {w : Word} {op : Nat} (hop : opOf w = op) (hz : reservedK w = true) :
    formatK op (rowField w) (colField w) = w := by
  have hw := w.isLt
  rw [opOf_eq] at hop
  rw [reservedK_iff] at hz
  apply BitVec.eq_of_toNat_eq
  rw [formatK, BitVec.toNat_ofNat, rowField_eq, colField_eq]
  omega

theorem formatA_fields {w : Word} {op : Nat} (hop : opOf w = op) :
    formatA op (rowField w) (colField w) (attrField w) (chField w) = w := by
  have hw := w.isLt
  rw [opOf_eq] at hop
  apply BitVec.eq_of_toNat_eq
  rw [formatA, BitVec.toNat_ofNat, rowField_eq, colField_eq, attrField_toNat, chField_toNat]
  omega

theorem formatB_fields {w : Word} {op : Nat} (hop : opOf w = op) (hz : reservedBC w = true) :
    formatB op (offField w) = w := by
  have hw := w.isLt
  rw [opOf_eq] at hop
  rw [reservedBC_iff] at hz
  apply BitVec.eq_of_toNat_eq
  rw [formatB, BitVec.toNat_ofNat, offField_toNat]
  omega

theorem formatC_fields {w : Word} {op : Nat} (hop : opOf w = op) (hz : reservedBC w = true) :
    formatC op (attrField w) (chField w) = w := by
  have hw := w.isLt
  rw [opOf_eq] at hop
  rw [reservedBC_iff] at hz
  apply BitVec.eq_of_toNat_eq
  rw [formatC, BitVec.toNat_ofNat, attrField_toNat, chField_toNat]
  omega

theorem formatN_opcode {w : Word} {op : Nat} (hop : opOf w = op) (hz : reservedN w = true) : formatN op = w := by
  have hw := w.isLt
  rw [opOf_eq] at hop
  rw [reservedN_iff] at hz
  apply BitVec.eq_of_toNat_eq
  rw [formatN, BitVec.toNat_ofNat]
  omega

/-- A legal word is the word of the command it stands for: no bit of it is lost in decoding. -/
theorem encode_of_decode {w : Word} {i : Instr} (h : decode w = .ok i) : encode i = w := by
  unfold decode at h
  split at h
  case h_1 hop => obtain ⟨hz, rfl⟩ := unlessReserved_eq_ok.1 h; exact formatK_fields hop hz
  case h_2 hop => obtain ⟨hz, rfl⟩ := unlessReserved_eq_ok.1 h; exact formatB_fields hop hz
  case h_3 hop => obtain ⟨hz, rfl⟩ := unlessReserved_eq_ok.1 h; exact formatB_fields hop hz
  case h_4 hop => obtain ⟨hz, rfl⟩ := unlessReserved_eq_ok.1 h; exact formatN_opcode hop hz
  case h_5 hop => obtain ⟨hz, rfl⟩ := unlessReserved_eq_ok.1 h; exact formatB_fields hop hz
  case h_6 hop => obtain ⟨hz, rfl⟩ := unlessReserved_eq_ok.1 h; exact formatB_fields hop hz
  case h_7 hop => obtain ⟨hz, rfl⟩ := unlessReserved_eq_ok.1 h; exact formatC_fields hop hz
  case h_8 hop => cases h; exact formatA_fields hop
  case h_9 hop => obtain ⟨hz, rfl⟩ := unlessReserved_eq_ok.1 h; exact formatN_opcode hop hz
  case h_10 => cases h

end Sys2Proof
end

section
/-! PROOFS. What each command leaves, one equation a command and a case of it. CLEAR's is `execClear_eq`, and each address
command's is `answerWith` unfolded. -/

namespace Sys2Proof.Machine

/-- The state a cursor read leaves (R122, R129). -/
def afterCursorRead (s : State) : State :=
  { s with
    crtcIndex := Config.curLoIndex
    fsm := .exec
    busLog := (cursorReadTxns s.cursor).reverse ++ s.busLog }

theorem cursorRead_next (s : State) : cursorRead s = .next (s.cursor, afterCursorRead s) := cursorRead_eq s

/-- GET_CURSOR (R123). -/
theorem execGetCursor_eq (s : State) :
    execGetCursor s = .next
      { s with
        result := s.cursor.setWidth 32
        crtcIndex := Config.curLoIndex
        fsm := .idle
        busLog := (cursorReadTxns s.cursor).reverse ++ s.busLog } := by
  rw [execGetCursor, cursorRead_next]
  rfl

/-- SET_CURSOR (R125). -/
theorem execSetCursor_eq (off : Half) (s : State) :
    execSetCursor off s = .next
      { s with
        crtcIndex := Config.curLoIndex
        curHi := hiByte off
        curLo := loByte off
        fsm := .idle
        busLog := (cursorWriteTxns off).reverse ++ s.busLog } := by
  rw [execSetCursor, cursorWrite_eq]
  rfl

/-- The offset SCROLL answers with (R141, R142). -/
def scrolledOff (off : Half) : Half := if inGrid off.toNat then off else BitVec.ofNat 16 (off.toNat - Config.cols)

/-- SCROLL (R142): the whole effect. -/
theorem execScroll_eq (off : Half) (s : State) :
    ∃ m, execScroll off s = .next
        { s with
          result := (scrolledOff off).setWidth 32
          off := scrolledOff off
          fsm := .idle
          vram := m
          busLog := (if inGrid off.toNat then [] else scrollTxns (Memory.read s.vram)).reverse ++ s.busLog } ∧
      (∀ a, Memory.read m a = if inGrid off.toNat then Memory.read s.vram a else scrolledByte (Memory.read s.vram) a) ∧
      (Memory.wf s.vram → Memory.wf m) := by
  obtain ⟨m, he, hm, hw⟩ := scrollOff_eq (setOff off s)
  exact ⟨m, by rw [execScroll, he]; rfl, hm, hw⟩

/-- PUTC with the cursor in the grid is the character path from the cursor (R161). -/
theorem execPutc_inGrid {s : State} (h : inGrid s.cursor.toNat = true) (ch attr : Byte) :
    execPutc ch attr s =
      (putCharAt s.cursor ch attr (afterCursorRead s)).andThen fun s' => .next (complete s') := by
  rw [execPutc, cursorRead_next, Run.andThen_next, if_pos h]

/-- PUTC with the cursor outside the grid faults after the cursor read (R161, R203). -/
theorem execPutc_outOfGrid {s : State} (h : inGrid s.cursor.toNat = false) (ch attr : Byte) :
    execPutc ch attr s =
      .next (raiseFault .outOfGrid s.cursor (encode (.putc ch attr)) (afterCursorRead s)) := by
  rw [execPutc, cursorRead_next, Run.andThen_next, if_neg (by simp [h])]

/-- PUTC_AT at a coordinate of the grid is the character path from it (R162). -/
theorem execPutcAt_inGrid {col row : Nat} (h : coordInGrid col row = true) (ch attr : Byte) (s : State) :
    execPutcAt ch attr col row s =
      (putCharAt (BitVec.ofNat 16 (offsetOf col row)) ch attr s).andThen fun s' => .next (complete s') := by
  rw [execPutcAt, if_pos h]

/-- PUTC_AT at a coordinate outside the grid faults (R162, R202). -/
theorem execPutcAt_coordRange {col row : Nat} (h : coordInGrid col row = false) (ch attr : Byte) (s : State) :
    execPutcAt ch attr col row s = .next (raiseFault .coordRange 0 (encode (.putcAt ch attr col row)) s) := by
  rw [execPutcAt, if_neg (by simp [h])]

/-- An in-grid coordinate's offset fits `OFF`, so its 16-bit form is in the grid too (R109). -/
theorem offsetOf_half_inGrid {col row : Nat} (h : coordInGrid col row = true) :
    inGrid (BitVec.ofNat 16 (offsetOf col row)).toNat = true := by
  have hg := inGrid_iff.1 (offsetOf_inGrid h)
  rw [inGrid_iff, BitVec.toNat_ofNat]
  omega

end Sys2Proof.Machine
end

section
/-! PROOFS. Said once: the ways a command can end, and the ways a step can lead on. The invariants and frames of the state
are read off these. -/

namespace Sys2Proof.Machine

/-! ### How a command ends -/

/-- What every command that raises no fault leaves: the block accepts the next word, the fault registers and the model's own
fields are untouched, `RESULT` too where R21 says so, and the buffer stays in canonical form. -/
structure Completed (i : Instr) (s t : State) : Prop where
  idle : t.fsm = .idle
  faultRegs : SameFaultRegs s t
  hostSide : SameHostSide s t
  result : (i = .clear ∨ ∃ off, i = .setCursor off) → t.result = s.result
  buffer : BufferInv s → BufferInv t

/-- How a command that began in `s` ends: completed, or by one of the two faults a decoded command can raise (R200). -/
inductive Ending (s : State) : Instr → State → Prop where
  | completed {i : Instr} {t : State} (h : Completed i s t) : Ending s i t
  | coordRange {ch attr : Byte} {col row : Nat} (h : coordInGrid col row = false) :
      Ending s (.putcAt ch attr col row) (raiseFault .coordRange 0 (encode (.putcAt ch attr col row)) s)
  | outOfGrid {ch attr : Byte} (h : inGrid s.cursor.toNat = false) :
      Ending s (.putc ch attr) (raiseFault .outOfGrid s.cursor (encode (.putc ch attr)) (afterCursorRead s))

/-- A command that only writes `RESULT` completes (R100). -/
theorem answerWith_completed {i : Instr} (hi : ¬ (i = .clear ∨ ∃ off, i = .setCursor off)) (v : Nat) (s : State) :
    ∃ t, answerWith v s = .next t ∧ Completed i s t :=
  ⟨_, rfl, rfl, ⟨rfl, rfl, rfl⟩, ⟨rfl, rfl⟩, fun h => absurd h hi, id⟩

/-- The character path from an offset of the grid completes its command (R160). -/
theorem putCharAt_completed {i : Instr} (hi : ¬ (i = .clear ∨ ∃ off, i = .setCursor off)) {o : Half}
    (ho : inGrid o.toNat = true) (ch attr : Byte) (s : State) :
    ∃ t, (putCharAt o ch attr s).andThen (fun s' => .next (complete s')) = .next t ∧ Completed i s t := by
  obtain ⟨m, he, -, hw⟩ := putCharAt_eq ho ch attr s
  rw [he]
  exact ⟨_, rfl, rfl, ⟨rfl, rfl, rfl⟩, ⟨rfl, rfl⟩, fun h => absurd h hi, hw⟩

/-- What a command completes with, it completed from before a cursor read too: the read touches none of it. -/
theorem Completed.of_afterCursorRead {i : Instr} {s t : State} (h : Completed i (afterCursorRead s) t) :
    Completed i s t :=
  ⟨h.idle, h.faultRegs, h.hostSide, h.result, h.buffer⟩

/-- Every command ends, in one of the ways of `Ending`. -/
theorem exec_ends (i : Instr) (s : State) : ∃ t, exec i s = .next t ∧ Ending s i t := by
  cases i with
  | offsetOf col row =>
    obtain ⟨t, he, hc⟩ := answerWith_completed (i := .offsetOf col row) (by simp) (offsetOf col row) s
    exact ⟨t, he, .completed hc⟩
  | rowOf off =>
    obtain ⟨t, he, hc⟩ := answerWith_completed (i := .rowOf off) (by simp) (rowOf off.toNat) s
    exact ⟨t, he, .completed hc⟩
  | cellAddr off =>
    obtain ⟨t, he, hc⟩ := answerWith_completed (i := .cellAddr off) (by simp) (cellAddr off.toNat) s
    exact ⟨t, he, .completed hc⟩
  | getCursor =>
    exact ⟨_, execGetCursor_eq s, .completed ⟨rfl, ⟨rfl, rfl, rfl⟩, ⟨rfl, rfl⟩, by simp, id⟩⟩
  | setCursor off =>
    exact ⟨_, execSetCursor_eq off s, .completed ⟨rfl, ⟨rfl, rfl, rfl⟩, ⟨rfl, rfl⟩, fun _ => rfl, id⟩⟩
  | scroll off =>
    obtain ⟨m, he, -, hw⟩ := execScroll_eq off s
    exact ⟨_, he, .completed ⟨rfl, ⟨rfl, rfl, rfl⟩, ⟨rfl, rfl⟩, by simp, hw⟩⟩
  | putc ch attr =>
    cases hg : inGrid s.cursor.toNat with
    | true =>
      obtain ⟨t, he, hc⟩ := putCharAt_completed (i := .putc ch attr) (by simp) hg ch attr (afterCursorRead s)
      exact ⟨t, (execPutc_inGrid hg ch attr).trans he, .completed hc.of_afterCursorRead⟩
    | false => exact ⟨_, execPutc_outOfGrid hg ch attr, .outOfGrid hg⟩
  | putcAt ch attr col row =>
    cases hg : coordInGrid col row with
    | true =>
      obtain ⟨t, he, hc⟩ :=
        putCharAt_completed (i := .putcAt ch attr col row) (by simp) (offsetOf_half_inGrid hg) ch attr s
      exact ⟨t, (execPutcAt_inGrid hg ch attr s).trans he, .completed hc⟩
    | false => exact ⟨_, execPutcAt_coordRange hg ch attr s, .coordRange hg⟩
  | clear =>
    obtain ⟨m, he, -, hw⟩ := execClear_eq s
    exact ⟨_, he, .completed ⟨rfl, ⟨rfl, rfl, rfl⟩, ⟨rfl, rfl⟩, fun _ => rfl, hw⟩⟩

/-- The state a command leads to is one of its endings. -/
theorem ending_of_exec {i : Instr} {s t : State} (h : exec i s = .next t) : Ending s i t := by
  obtain ⟨u, he, hu⟩ := exec_ends i s
  cases he.symm.trans h
  exact hu

/-- No ending touches the model's own fields. -/
theorem Ending.hostSide {i : Instr} {s t : State} (h : Ending s i t) : SameHostSide s t := by
  cases h with
  | completed h => exact h.hostSide
  | coordRange => exact ⟨rfl, rfl⟩
  | outOfGrid => exact ⟨rfl, rfl⟩

/-- Every ending keeps the canonical form of the buffer; the faulting ones do not write it (R205). -/
theorem Ending.buffer {i : Instr} {s t : State} (h : Ending s i t) (hs : BufferInv s) : BufferInv t := by
  cases h with
  | completed h => exact h.buffer hs
  | coordRange => exact hs
  | outOfGrid => exact hs

/-- Every ending of a decoded word leaves the sequencer consistent: the fault that is recorded is one the word raises. -/
theorem Ending.sequencer {w : Word} {i : Instr} {s t : State} (h : Ending s i t) (hd : decode w = .ok i)
    (hs : NoFault s) : SequencerInv t := by
  have hdec : decode (encode i) = .ok i := by rw [encode_of_decode hd, hd]
  cases h with
  | completed h =>
    obtain ⟨hst, hcmd, hval⟩ := h.faultRegs
    obtain ⟨hst0, hcmd0, hval0⟩ := hs
    exact .inl ⟨h.idle, hst.trans hst0, hcmd.trans hcmd0, hval.trans hval0⟩
  | coordRange hg => exact .inr ⟨rfl, .inr (.inl ⟨rfl, rfl, _, _, _, _, hdec, hg⟩)⟩
  | outOfGrid hg => exact .inr ⟨rfl, .inr (.inr ⟨rfl, rfl, hg, rfl, _, _, hdec⟩)⟩

/-! ### How a step leads on -/

/-- The host resets: whatever the block was doing, it is reset (R230). -/
theorem step_of_reset {s : State} {rest : List HostAction} (h : s.host = .reset :: rest) :
    step s = .next (blockReset { s with host := rest }) := by
  simp only [step, meetHost, h]

/-- The host does nothing: an idle block holds its state (R215). -/
theorem step_of_idle {s : State} (hf : s.fsm = .idle) (hh : s.host = []) : step s = .next s := by
  simp only [step, meetHost, hh, meetNothing, hf]

/-- An idle block runs the command a submitted word stands for (R79). -/
theorem step_of_decode_ok {s : State} {w : Word} {rest : List HostAction} {i : Instr} (hs : Submits w rest s)
    (hd : decode w = .ok i) : step s = exec i { s with host := rest, fsm := .exec } := by
  obtain ⟨hf, hh⟩ := hs
  simp only [step, meetHost, hh, meetWord, hf, hd]
  rfl

/-- An idle block raises ILLEGAL_COMMAND on any other word (R79, R201). -/
theorem step_of_decode_error {s : State} {w : Word} {rest : List HostAction} {e : Reject} (hs : Submits w rest s)
    (hd : decode w = .error e) : step s = .next (raiseIllegal w { s with host := rest, fsm := .exec }) := by
  obtain ⟨hf, hh⟩ := hs
  simp only [step, meetHost, hh, meetWord, hf, hd]
  rfl

/-- A block that is not idle leads on by a reset only (R206). -/
theorem step_stuck {s : State} (hf : s.fsm ≠ .idle) (hh : ∀ rest, s.host ≠ .reset :: rest) :
    ∃ f, step s = .fault f := by
  have hquiet : ∃ f, meetNothing s = .stuck f := by
    cases h : s.fsm <;> simp_all [meetNothing]
  have hword : ∀ w rest, ∃ f, meetWord w { s with host := rest } = .stuck f := by
    cases h : s.fsm <;> simp_all [meetWord]
  cases h : s.host with
  | nil =>
    obtain ⟨f, hm⟩ := hquiet
    exact ⟨f, by simp only [step, meetHost, h, hm]⟩
  | cons a rest =>
    cases a with
    | reset => exact absurd h (hh rest)
    | submit w =>
      obtain ⟨f, hm⟩ := hword w rest
      exact ⟨f, by simp only [step, meetHost, h, hm]⟩

/-- The ways a step can lead on. -/
inductive Onward (s : State) : State → Prop where
  | reset {rest : List HostAction} (hh : s.host = .reset :: rest) : Onward s (blockReset { s with host := rest })
  | quiet (hf : s.fsm = .idle) (hh : s.host = []) : Onward s s
  | illegal {w : Word} {rest : List HostAction} {e : Reject} (hs : Submits w rest s) (hd : decode w = .error e) :
      Onward s (raiseIllegal w { s with host := rest, fsm := .exec })
  | command {w : Word} {rest : List HostAction} {i : Instr} {t : State} (hs : Submits w rest s)
      (hd : decode w = .ok i) (he : Ending { s with host := rest, fsm := .exec } i t) : Onward s t

/-- The state a step leads to is reached in one of the ways of `Onward`. -/
theorem onward_of_step {s t : State} (h : step s = .next t) : Onward s t := by
  by_cases hr : ∃ rest, s.host = .reset :: rest
  · obtain ⟨rest, hh⟩ := hr
    cases (step_of_reset hh).symm.trans h
    exact .reset hh
  by_cases hf : s.fsm = .idle
  · cases hh : s.host with
    | nil =>
      cases (step_of_idle hf hh).symm.trans h
      exact .quiet hf hh
    | cons a rest =>
      cases a with
      | reset => exact absurd ⟨rest, hh⟩ hr
      | submit w =>
        cases hd : decode w with
        | error e =>
          cases (step_of_decode_error ⟨hf, hh⟩ hd).symm.trans h
          exact .illegal ⟨hf, hh⟩ hd
        | ok i => exact .command ⟨hf, hh⟩ hd (ending_of_exec ((step_of_decode_ok ⟨hf, hh⟩ hd).symm.trans h))
  · obtain ⟨f, hstuck⟩ := step_stuck hf fun rest hh => hr ⟨rest, hh⟩
    cases hstuck.symm.trans h

/-! ### `OFF` before a command -/

/-- The character path writes `OFF` before it reads it (R160). -/
theorem putCharAt_setOff (o p : Half) (ch attr : Byte) (s : State) :
    putCharAt o ch attr (setOff p s) = putCharAt o ch attr s := rfl

/-- CLEAR neither reads nor writes `OFF`: its fill depends on the buffer alone (R167). -/
theorem execClear_setOff (o : Half) (s : State) :
    ∃ t, execClear s = .next t ∧ execClear (setOff o s) = .next (setOff o t) := by
  obtain ⟨g, txns, hfill⟩ := clearCells_bufferOnly
  simp only [execClear, hfill, Run.andThen_next, cursorWrite_eq]
  exact ⟨_, rfl, rfl⟩

/-- A command started with another `OFF` ends in the same state (it wrote `OFF`), or in the same but for that `OFF` (it never
touched it). -/
theorem exec_setOff (i : Instr) (s : State) (o : Half) :
    ∃ t, exec i s = .next t ∧ (exec i (setOff o s) = .next t ∨ exec i (setOff o s) = .next (setOff o t)) := by
  cases i with
  | offsetOf col row => exact ⟨_, rfl, .inr rfl⟩
  | rowOf off => exact ⟨_, rfl, .inr rfl⟩
  | cellAddr off => exact ⟨_, rfl, .inr rfl⟩
  | getCursor => exact ⟨_, execGetCursor_eq s, .inr (execGetCursor_eq (setOff o s))⟩
  | setCursor off => exact ⟨_, execSetCursor_eq off s, .inr (execSetCursor_eq off (setOff o s))⟩
  | scroll off =>
    obtain ⟨t, he, -⟩ := exec_ends (.scroll off) s
    exact ⟨t, he, .inl he⟩
  | putc ch attr =>
    cases hg : inGrid s.cursor.toNat with
    | true =>
      obtain ⟨t, he, -⟩ := exec_ends (.putc ch attr) s
      have hsame : execPutc ch attr (setOff o s) = execPutc ch attr s :=
        (execPutc_inGrid (s := setOff o s) hg ch attr).trans (execPutc_inGrid hg ch attr).symm
      exact ⟨t, he, .inl (hsame.trans he)⟩
    | false => exact ⟨_, execPutc_outOfGrid hg ch attr, .inr (execPutc_outOfGrid (s := setOff o s) hg ch attr)⟩
  | putcAt ch attr col row =>
    cases hg : coordInGrid col row with
    | true =>
      obtain ⟨t, he, -⟩ := exec_ends (.putcAt ch attr col row) s
      have hsame : execPutcAt ch attr col row (setOff o s) = execPutcAt ch attr col row s := by
        rw [execPutcAt_inGrid hg, execPutcAt_inGrid hg, putCharAt_setOff]
      exact ⟨t, he, .inl (hsame.trans he)⟩
    | false => exact ⟨_, execPutcAt_coordRange hg ch attr s, .inr (execPutcAt_coordRange hg ch attr (setOff o s))⟩
  | clear =>
    obtain ⟨t, he, ho⟩ := execClear_setOff o s
    exact ⟨t, he, .inr ho⟩

end Sys2Proof.Machine
end

section
/-! PROOFS. The statements of 10_state: the state's invariants, what commands keep, and what the host reads. -/

namespace Sys2Proof.Machine

/-! ### The invariants of a step -/

/-- Settles O15, by the ways a step leads on: only a word met in `IDLE` can record a fault, and it records its own. -/
theorem stepKeepsSequencerConsistent : Obligations.StepKeepsSequencerConsistent := by
  intro s t hs h
  cases onward_of_step h with
  | reset => exact .inl ⟨rfl, rfl, rfl, rfl⟩
  | quiet => exact hs
  | illegal _ hd => exact .inr ⟨rfl, .inl ⟨rfl, rfl, _, hd⟩⟩
  | command hsub hd he =>
    obtain ⟨-, hno⟩ | ⟨hhalt, -⟩ := hs
    · exact he.sequencer hd hno
    · cases hsub.1.symm.trans hhalt

/-- Settles O16, by the ways a step leads on: only a completed command writes the buffer. -/
theorem stepKeepsBufferCanonical : Obligations.StepKeepsBufferCanonical := by
  intro s t hs h
  cases onward_of_step h with
  | reset => exact hs
  | quiet => exact hs
  | illegal => exact hs
  | command _ _ he => exact he.buffer hs

/-- Settles O18: after reset nothing has been written and nothing performed. -/
theorem resetMeetsTheInvariants : Obligations.ResetMeetsTheInvariants :=
  ⟨.inl ⟨rfl, rfl, rfl, rfl⟩, Memory.wf_nil, fun t ht => absurd ht (List.not_mem_nil (a := t))⟩

/-! ### What commands keep -/

/-- Settles O22, by the ways a command ends. -/
theorem onlyFaultsWriteTheFaultRegisters : Obligations.OnlyFaultsWriteTheFaultRegisters := by
  intro i s t h
  have hend := ending_of_exec h
  refine ⟨hend.hostSide, fun hidle => ?_⟩
  cases hend with
  | completed hc => exact hc.faultRegs
  | coordRange => cases hidle
  | outOfGrid => cases hidle

/-- Settles O23, by the ways a command ends: a faulting one does not reach its write of `RESULT`. -/
theorem resultKeptBySomeCommands : Obligations.ResultKeptBySomeCommands := by
  intro i s t h hcase
  cases ending_of_exec h with
  | completed hc =>
    obtain hhalt | hkeeps := hcase
    · cases hc.idle.symm.trans hhalt
    · exact hc.result hkeeps
  | coordRange => rfl
  | outOfGrid => rfl

/-- Settles O26: a command overwrites `OFF` before it reads it, or never touches it. -/
theorem offBetweenCommandsIsDead : Obligations.OffBetweenCommandsIsDead := by
  intro i s o
  obtain ⟨t, he, hsame | hoff⟩ := exec_setOff i s o
  · exact ⟨t, t, he, hsame, rfl⟩
  · exact ⟨t, setOff o t, he, hoff, rfl⟩

/-! ### The step, reset and the host's reads -/

/-- Settles O8. -/
theorem stepRunsTheDecodedCommand : Obligations.StepRunsTheDecodedCommand :=
  fun _ _ _ _ hs hd => step_of_decode_ok hs hd

/-- Settles O12. -/
theorem resetValues : Obligations.ResetValues := ⟨rfl, rfl, rfl, rfl, rfl, rfl⟩

/-- The block is busy in every state of the sequencer but two (R23). -/
theorem busy_eq_false_iff {f : Fsm} : f.busy = false ↔ f = .idle ∨ f = .halted := by
  cases f <;> simp [Fsm.busy]

/-- While no command executes, `STATUS` reads as stored. -/
theorem statusView_of_not_busy {s : State} (h : s.fsm.busy = false) : s.statusView = s.status := by
  simp [State.statusView, h]

/-- Settles O13. -/
theorem hostReadsTheRegisters : Obligations.HostReadsTheRegisters := by
  refine fun s => ⟨fun hf => ?_, fun hidle hhalt r => ?_⟩
  · have hbusy := busy_eq_false_iff.2 hf
    simp [hostRead, hostMayRead, hbusy, statusView_of_not_busy]
  · have hbusy : s.fsm.busy ≠ false := fun h => (busy_eq_false_iff.1 h).elim hidle hhalt
    simp [hostRead, hostMayRead, hbusy]

/-- A recorded fault's `STATUS` is the word of one of the three causes. -/
theorem FaultRecorded.status_eq {s : State} (h : FaultRecorded s) : ∃ cause, s.status = faultStatus cause := by
  obtain ⟨h, -⟩ | ⟨h, -⟩ | ⟨h, -⟩ := h <;> exact ⟨_, h⟩

/-- The fields of the word each cause writes to `STATUS` (R200, R204). -/
theorem faultStatus_fields (cause : FaultCause) :
    statusReservedZero (faultStatus cause) = true ∧ busyBit (faultStatus cause) = false ∧
    faultBit (faultStatus cause) = true ∧
    (fcode (faultStatus cause) = 1 ∨ fcode (faultStatus cause) = 2 ∨ fcode (faultStatus cause) = 3) := by
  cases cause <;> decide

/-- Settles O14: `STATUS` is zero in `IDLE` and the word of a fault in `HALTED`. -/
theorem statusFieldsBetweenCommands : Obligations.StatusFieldsBetweenCommands := by
  intro s hs
  obtain ⟨hf, hst, -⟩ | ⟨hf, hrec⟩ := hs
  · rw [statusView_of_not_busy (busy_eq_false_iff.2 (.inl hf)), hst, hf]
    decide
  · obtain ⟨cause, hst⟩ := hrec.status_eq
    obtain ⟨hres, hbusy, hfault, hcode⟩ := faultStatus_fields cause
    rw [statusView_of_not_busy (busy_eq_false_iff.2 (.inr hf)), hst]
    exact ⟨hres, hbusy, by simp [hfault, hf], by simp [hfault], fun _ => hcode⟩

end Sys2Proof.Machine
end

section
/-! PROOFS. Said once: the transactions of each command and of each step, and that every such sequence keeps to the buffer, to
the ports left to the block and to whole cursor sequences (R40, R50, R55, R126). -/

namespace Sys2Proof.Machine

/-! ### The transactions of a command -/

/-- Transactions performed one after the other (R55). -/
theorem Performed.trans {xs ys : List Txn} {s u t : State} (h1 : Performed xs s u) (h2 : Performed ys u t) :
    Performed (xs ++ ys) s t := by
  simp only [Performed] at h1 h2 ⊢
  rw [h2, h1, List.reverse_append, List.append_assoc]

/-- An in-grid coordinate's offset is its 16-bit form (R26, R109). -/
theorem offsetOf_half_toNat {col row : Nat} (h : coordInGrid col row = true) :
    (BitVec.ofNat 16 (offsetOf col row)).toNat = offsetOf col row := by
  have hg := inGrid_iff.1 (offsetOf_inGrid h)
  rw [BitVec.toNat_ofNat]
  omega

/-- What a command begun in `s` performs, oldest first. A PUTC that faults has read the cursor (R203); a PUTC_AT that faults
has performed nothing (R202). -/
def execTxns (s : State) : Instr → List Txn
  | .offsetOf _ _ => []
  | .rowOf _ => []
  | .cellAddr _ => []
  | .getCursor => cursorReadTxns s.cursor
  | .setCursor off => cursorWriteTxns off
  | .scroll off => if inGrid off.toNat then [] else scrollTxns (Memory.read s.vram)
  | .putc ch attr =>
    cursorReadTxns s.cursor ++
      if inGrid s.cursor.toNat then charTxns (Memory.read s.vram) s.cursor.toNat ch attr else []
  | .putcAt ch attr col row =>
    if coordInGrid col row then charTxns (Memory.read s.vram) (offsetOf col row) ch attr else []
  | .clear => fillTxns (List.range Config.cells) ++ cursorWriteTxns 0

theorem afterCursorRead_performed (s : State) : Performed (cursorReadTxns s.cursor) s (afterCursorRead s) := rfl

/-- The character path's transactions, up to the end of its command (R160, R164). -/
theorem putCharAt_performed {o : Half} (ho : inGrid o.toNat = true) {ch attr : Byte} {s t : State}
    (h : (putCharAt o ch attr s).andThen (fun s' => .next (complete s')) = .next t) :
    Performed (charTxns (Memory.read s.vram) o.toNat ch attr) s t := by
  obtain ⟨m, he, -⟩ := putCharAt_eq ho ch attr s
  rw [he] at h
  cases h
  rfl

/-- A command performs its transactions and no others. -/
theorem exec_performed {i : Instr} {s t : State} (h : exec i s = .next t) : Performed (execTxns s i) s t := by
  cases i with
  | offsetOf col row => cases h; rfl
  | rowOf off => cases h; rfl
  | cellAddr off => cases h; rfl
  | getCursor => cases (execGetCursor_eq s).symm.trans h; rfl
  | setCursor off => cases (execSetCursor_eq off s).symm.trans h; rfl
  | scroll off =>
    obtain ⟨m, he, -⟩ := execScroll_eq off s
    cases he.symm.trans h
    rfl
  | putc ch attr =>
    refine (afterCursorRead_performed s).trans ?_
    cases hg : inGrid s.cursor.toNat with
    | true => exact putCharAt_performed hg ((execPutc_inGrid hg ch attr).symm.trans h)
    | false => cases (execPutc_outOfGrid hg ch attr).symm.trans h; rfl
  | putcAt ch attr col row =>
    rw [execTxns]
    cases hg : coordInGrid col row with
    | true =>
      have hp := putCharAt_performed (offsetOf_half_inGrid hg) ((execPutcAt_inGrid hg ch attr s).symm.trans h)
      rwa [offsetOf_half_toNat hg] at hp
    | false => cases (execPutcAt_coordRange hg ch attr s).symm.trans h; rfl
  | clear =>
    obtain ⟨m, he, -⟩ := execClear_eq s
    cases he.symm.trans h
    rfl

/-! ### What the spec allows of a sequence of transactions -/

/-- Each of `txns` is a transaction the block may perform, and the port transactions among them are whole cursor sequences.
The second part is said for whatever follows, so that sequences can be put together (`Allowed.append`). -/
structure Allowed (txns : List Txn) : Prop where
  lawful : ∀ t ∈ txns, t.lawful = true
  whole : ∀ rest, wholeSequences (txns ++ rest) = wholeSequences rest

namespace Allowed

theorem wholeSequences_eq_true {txns : List Txn} (h : Allowed txns) : wholeSequences txns = true := by
  simpa [wholeSequences] using h.whole []

theorem nil : Allowed [] := ⟨by simp, fun _ => rfl⟩

theorem append {xs ys : List Txn} (hx : Allowed xs) (hy : Allowed ys) : Allowed (xs ++ ys) where
  lawful t ht := (List.mem_append.1 ht).elim (hx.lawful t) (hy.lawful t)
  whole rest := by rw [List.append_assoc, hx.whole, hy.whole]

/-- A loop's transactions are allowed when those of each turn are. -/
theorem flatMap {α : Type} {f : α → List Txn} {xs : List α} (h : ∀ x ∈ xs, Allowed (f x)) :
    Allowed (xs.flatMap f) := by
  induction xs with
  | nil => exact nil
  | cons x xs ih => exact (h x (by simp)).append (ih fun y hy => h y (by simp [hy]))

theorem ite {c : Prop} [Decidable c] {xs ys : List Txn} (hx : c → Allowed xs) (hy : ¬ c → Allowed ys) :
    Allowed (if c then xs else ys) := by
  split
  · next h => exact hx h
  · next h => exact hy h

theorem memRead {a : Nat} (h : inBuffer a = true) (v : Byte) : Allowed [.memRead a v] :=
  ⟨by simpa [Txn.lawful] using h, fun _ => rfl⟩

theorem memWrite {a : Nat} (h : inBuffer a = true) (v : Byte) : Allowed [.memWrite a v] :=
  ⟨by simpa [Txn.lawful] using h, fun _ => rfl⟩

/-- The cursor protocol selects 0x0E and 0x0F and transfers through the data port (R50, R126). -/
theorem cursorRead (c : Half) : Allowed (cursorReadTxns c) :=
  ⟨by simp [cursorReadTxns, Txn.lawful], fun rest => by simp [cursorReadTxns, wholeSequences]⟩

theorem cursorWrite (v : Half) : Allowed (cursorWriteTxns v) :=
  ⟨by simp [cursorWriteTxns, Txn.lawful], fun rest => by simp [cursorWriteTxns, wholeSequences]⟩

/-- Both bytes of a cell of the grid are in the buffer (R42). -/
theorem cell {o : Nat} (h : o < 2000) (ch attr : Byte) : Allowed (cellTxns o ch attr) :=
  (memWrite (inBuffer_cellAddr h) ch).append (memWrite (inBuffer_attrAddr h) attr)

/-- The fill of CLEAR covers the cells of the grid (R167). -/
theorem fill : Allowed (fillTxns (List.range Config.cells)) :=
  flatMap fun _ ho => cell (List.mem_range.1 ho) _ _

/-- A row that has one above it moves inside the buffer (R45, R141 (a)). -/
theorem copy (old : Nat → Byte) {r : Nat} (h1 : 1 ≤ r) (hr : r < 25) :
    Allowed (copyTxns old r (List.range Config.rowBytes)) :=
  flatMap fun _ hb =>
    have hb160 := List.mem_range.1 hb
    (memRead (inBuffer_rowByteAddr hr hb160) _).append (memWrite (inBuffer_rowByteAddr (by omega) hb160) _)

/-- The rows that a scroll moves are 1 to 24 (R141 (a)). -/
theorem shift (old : Nat → Byte) : Allowed (shiftTxns old (List.range' 1 Config.lastRow)) :=
  flatMap fun r hr => by
    simp only [List.mem_range'_1, Config.lastRow, Config.rows] at hr
    exact copy old (by omega) (by omega)

/-- The cells that a scroll blanks are those of row 24 (R141 (b)). -/
theorem blank : Allowed (blankTxns (List.range Config.cols)) := by
  rw [blankTxns, List.map_eq_flatMap]
  refine flatMap fun c hc => memWrite (inBuffer_cellAddr ?_) _
  simp only [List.mem_range, Config.cols] at hc
  simp only [offsetOf_eq, Config.lastRow, Config.rows]
  omega

theorem scroll (old : Nat → Byte) : Allowed (scrollTxns old) := (shift old).append blank

/-- The character path from an offset of the grid: draw, scroll, cursor write (R160, R164). -/
theorem char (old : Nat → Byte) {o : Nat} (ho : inGrid o = true) (ch attr : Byte) :
    Allowed (charTxns old o ch attr) := by
  have hdraw := ite (c := ch = Config.newlineChar) (fun _ => nil) fun _ => cell (inGrid_iff.1 ho) ch attr
  have hscroll := ite (c := charScrolls o ch = true) (fun _ => scroll (drawnByte old o ch attr)) fun _ => nil
  exact (hdraw.append hscroll).append (cursorWrite _)

/-- Every command performs an allowed sequence, from every state: a character is drawn only where the grid
check has passed (R161, R162). -/
theorem exec (s : State) (i : Instr) : Allowed (execTxns s i) := by
  cases i with
  | offsetOf col row => exact nil
  | rowOf off => exact nil
  | cellAddr off => exact nil
  | getCursor => exact cursorRead s.cursor
  | setCursor off => exact cursorWrite off
  | scroll off => exact ite (fun _ => nil) fun _ => scroll _
  | putc ch attr => exact (cursorRead s.cursor).append (ite (fun hg => char _ hg ch attr) fun _ => nil)
  | putcAt ch attr col row => exact ite (fun hg => char _ (offsetOf_inGrid hg) ch attr) fun _ => nil
  | clear => exact fill.append (cursorWrite 0)

end Allowed

/-- A step performs an allowed sequence and takes nothing back: only a command performs transactions (R201, R231). -/
theorem step_performs_allowed {s t : State} (h : step s = .next t) : ∃ txns, Performed txns s t ∧ Allowed txns := by
  cases onward_of_step h with
  | reset => exact ⟨[], rfl, .nil⟩
  | quiet => exact ⟨[], rfl, .nil⟩
  | illegal => exact ⟨[], rfl, .nil⟩
  | command hs hd =>
    have hp := exec_performed ((step_of_decode_ok hs hd).symm.trans h)
    exact ⟨_, hp, .exec _ _⟩

end Sys2Proof.Machine
end

section
/-! PROOFS. The statements of 20_memory: the buffer, the transactions a step adds, and that no command stops. -/

namespace Sys2Proof.Machine

/-- Settles O17: each new transaction is of an allowed sequence. -/
theorem stepKeepsBusLawful : Obligations.StepKeepsBusLawful := by
  intro s t hs h x hx
  obtain ⟨txns, hp, ha⟩ := step_performs_allowed h
  rw [hp, List.mem_append, List.mem_reverse] at hx
  exact hx.elim (ha.lawful x) (hs x)

/-- Settles O19: what a step adds is an allowed sequence, so its port transactions are whole cursor sequences. -/
theorem stepAddsWholeSequences : Obligations.StepAddsWholeSequences := by
  intro s t h
  obtain ⟨txns, hp, ha⟩ := step_performs_allowed h
  exact ⟨txns, hp, ha.wholeSequences_eq_true⟩

/-- The sequencer rests where a command ends (R27, R206). -/
theorem Ending.fsm {i : Instr} {s t : State} (h : Ending s i t) : t.fsm = .idle ∨ t.fsm = .halted := by
  cases h with
  | completed h => exact .inl h.idle
  | coordRange => exact .inr rfl
  | outOfGrid => exact .inr rfl

/-- Settles O21, by the ways a command ends. -/
theorem everyCommandEnds : Obligations.EveryCommandEnds := by
  intro i s
  obtain ⟨t, he, hend⟩ := exec_ends i s
  exact ⟨t, he, hend.fsm⟩

/-- Settles O55, by the one effect of a transaction inside the buffer and the read-after-write laws of the buffer as data. -/
theorem bufferIsPlainMemory : Obligations.BufferIsPlainMemory := by
  intro a v s hlo hhi
  have ha : inBuffer a = true := inBuffer_iff.2 ⟨hlo, Nat.lt_succ_of_le hhi⟩
  refine ⟨⟨_, memWrite_inBuffer ha v s, fun b hb => Memory.read_write_other s.vram v hb, ?_⟩,
    _, memRead_inBuffer ha s, rfl⟩
  rw [memRead_inBuffer ha, Memory.read_write_same]
  exact ⟨_, rfl, rfl⟩

end Sys2Proof.Machine
end

section
/-! PROOFS. Said once: decoding by the rows of R78. A word stands for the command whose row it selects, with the operands
that R77 reads from its fields. -/

namespace Sys2Proof.Machine

/-! ### A mask of R78 tests whole fields -/

theorem append_eq_append_iff {n m : Nat} {a c : BitVec n} {b d : BitVec m} : a ++ b = c ++ d ↔ a = c ∧ b = d := by
  refine ⟨fun h => ⟨?_, ?_⟩, fun ⟨ha, hb⟩ => by rw [ha, hb]⟩
  · simpa [BitVec.extractLsb'_append_eq_left] using congrArg (BitVec.extractLsb' m n) h
  · simpa [BitVec.extractLsb'_append_eq_right] using congrArg (BitVec.extractLsb' 0 m) h

/-- A word is its opcode, its middle field and its low half (R71 to R76). -/
theorem word_eq_fields (w : Word) : w = field w 28 4 ++ field w 16 12 ++ field w 0 16 := by
  simp only [field]
  rw [BitVec.extractLsb'_append_extractLsb'_eq_extractLsb' (start₁ := 16) (len₁ := 12) rfl,
    BitVec.extractLsb'_append_extractLsb'_eq_extractLsb' (start₁ := 0) (len₁ := 16) rfl, BitVec.extractLsb'_eq_self]

/-- A mask tests each of these fields by its own part. -/
theorem and_eq_iff_fields (w : Word) (m4 v4 : BitVec 4) (m12 v12 : BitVec 12) (m16 v16 : BitVec 16) :
    w &&& (m4 ++ m12 ++ m16) = v4 ++ v12 ++ v16 ↔
      (field w 28 4 &&& m4 = v4 ∧ field w 16 12 &&& m12 = v12) ∧ field w 0 16 &&& m16 = v16 := by
  conv_lhs => rw [word_eq_fields w]
  rw [BitVec.and_append, BitVec.and_append, append_eq_append_iff, append_eq_append_iff]

/-- The reserved field of format N is the reserved fields of the other formats together (R76). -/
theorem reservedN_eq (w : Word) : reservedN w = (reservedBC w && reservedK w) := by
  rw [Bool.eq_iff_iff, Bool.and_eq_true, reservedN_iff, reservedBC_iff, reservedK_iff]
  omega

/-! ### The rows of R78 -/

/-- The opcode of the row of a command (R78). -/
def rowOpcode : Instr → BitVec 4
  | .offsetOf _ _ => 0x1
  | .rowOf _ => 0x2
  | .cellAddr _ => 0x3
  | .getCursor => 0x4
  | .setCursor _ => 0x5
  | .scroll _ => 0x6
  | .putc _ _ => 0x7
  | .putcAt _ _ _ _ => 0x8
  | .clear => 0x9

/-- The reserved field of the row of a command is zero in `w`. Format A has none (R72 to R76). -/
def rowReservedZero (w : Word) : Instr → Bool
  | .offsetOf _ _ => reservedK w
  | .rowOf _ | .cellAddr _ | .setCursor _ | .scroll _ | .putc _ _ => reservedBC w
  | .getCursor | .clear => reservedN w
  | .putcAt _ _ _ _ => true

/-- The command of the row of another, with its operands read from `w` (R77). -/
def fromFields (w : Word) : Instr → Instr
  | .offsetOf _ _ => .offsetOf (colField w) (rowField w)
  | .rowOf _ => .rowOf (offField w)
  | .cellAddr _ => .cellAddr (offField w)
  | .getCursor => .getCursor
  | .setCursor _ => .setCursor (offField w)
  | .scroll _ => .scroll (offField w)
  | .putc _ _ => .putc (chField w) (attrField w)
  | .putcAt _ _ _ _ => .putcAt (chField w) (attrField w) (colField w) (rowField w)
  | .clear => .clear

theorem mem_opcodeTable_iff {r : OpcodeRow} : r ∈ opcodeTable ↔ ∃ i : Instr, i.opcodeRow = r := by
  constructor
  · intro h
    simp only [opcodeTable, List.mem_cons, List.not_mem_nil, or_false] at h
    rcases h with h | h | h | h | h | h | h | h | h <;> exact ⟨_, h.symm⟩
  · rintro ⟨i, rfl⟩
    cases i <;> simp [opcodeTable, Instr.opcodeRow]

/-- The match word of a row is its opcode and zeros. -/
theorem matchWord_eq (i : Instr) : i.opcodeRow.matchWord = rowOpcode i ++ 0#12 ++ 0#16 := by
  cases i <;> simp only [Instr.opcodeRow, rowOpcode] <;> decide

/-- A word selects a row when its opcode is the row's and the row's reserved field is zero (R78, R81). -/
theorem selects_iff (i : Instr) (w : Word) :
    i.opcodeRow.selects w = true ↔ opOf w = (rowOpcode i).toNat ∧ rowReservedZero w i = true := by
  rw [OpcodeRow.selects, decide_eq_true_iff, matchWord_eq, opOf, BitVec.toNat_inj]
  have hK : (0xF000FFFF : Word) = BitVec.allOnes 4 ++ 0#12 ++ BitVec.allOnes 16 := by decide
  have hA : (0xF0000000 : Word) = BitVec.allOnes 4 ++ 0#12 ++ 0#16 := by decide
  have hBC : (0xFFFF0000 : Word) = BitVec.allOnes 4 ++ BitVec.allOnes 12 ++ 0#16 := by decide
  have hN : (0xFFFFFFFF : Word) = BitVec.allOnes 4 ++ BitVec.allOnes 12 ++ BitVec.allOnes 16 := by decide
  cases i <;>
    simp only [Instr.opcodeRow, rowReservedZero, hK, hA, hBC, hN, and_eq_iff_fields, BitVec.and_allOnes,
      BitVec.and_zero, reservedN_eq, reservedK, reservedBC, Bool.and_eq_true, decide_eq_true_eq, and_true, and_assoc,
      BitVec.ofNat_eq_ofNat]

/-! ### The decoder by rows -/

/-- What the decoder makes of a word with the opcode of the row of `i`. -/
theorem decode_of_rowOpcode {i : Instr} {w : Word} (h : opOf w = (rowOpcode i).toNat) :
    decode w = unlessReserved (rowReservedZero w i) (fromFields w i) := by
  unfold decode
  cases i <;> rw [h] <;> rfl

/-- A word of the opcode of a row, whose reserved field is not zero, is illegal (R81). -/
theorem decode_of_reservedField (i : Instr) {w : Word} (hop : opOf w = (rowOpcode i).toNat)
    (hz : rowReservedZero w i = false) : decode w = .error .reservedField := by
  rw [decode_of_rowOpcode hop, hz]
  rfl

/-- What the decoder makes of a word with a reserved opcode (R80). -/
theorem decode_of_reservedOpcode {w : Word} (h : opOf w = 0 ∨ 10 ≤ opOf w) : decode w = .error .reservedOpcode := by
  unfold decode
  split
  case h_10 => rfl
  all_goals omega

/-- Every opcode is reserved or that of a row (R78, R80). -/
theorem opOf_cases (w : Word) : (opOf w = 0 ∨ 10 ≤ opOf w) ∨ ∃ i, opOf w = (rowOpcode i).toNat := by
  by_cases h : opOf w = 0 ∨ 10 ≤ opOf w
  · exact .inl h
  · refine .inr ?_
    have hlo : 1 ≤ opOf w := by omega
    have hhi : opOf w ≤ 9 := by omega
    interval_cases opOf w
    · exact ⟨.offsetOf 0 0, rfl⟩
    · exact ⟨.rowOf 0, rfl⟩
    · exact ⟨.cellAddr 0, rfl⟩
    · exact ⟨.getCursor, rfl⟩
    · exact ⟨.setCursor 0, rfl⟩
    · exact ⟨.scroll 0, rfl⟩
    · exact ⟨.putc 0 0, rfl⟩
    · exact ⟨.putcAt 0 0 0 0, rfl⟩
    · exact ⟨.clear, rfl⟩

@[simp] theorem opcodeRow_fromFields (w : Word) (i : Instr) : (fromFields w i).opcodeRow = i.opcodeRow := by
  cases i <;> rfl

theorem fromFields_eq_self_iff {w : Word} {i : Instr} : fromFields w i = i ↔ OperandsFrom w i := by
  cases i <;>
    simp only [fromFields, OperandsFrom, Instr.offsetOf.injEq, Instr.rowOf.injEq, Instr.cellAddr.injEq,
      Instr.setCursor.injEq, Instr.scroll.injEq, Instr.putc.injEq, Instr.putcAt.injEq, eq_comm] <;> tauto

theorem operandsFrom_fromFields (w : Word) (i : Instr) : OperandsFrom w (fromFields w i) :=
  fromFields_eq_self_iff.1 (by cases i <;> rfl)

/-- Operands read from fields fit their fields. -/
theorem fromFields_wellFormed (w : Word) (i : Instr) : (fromFields w i).WellFormed = true := by
  have hcol : colField w < 128 := (field w 16 7).isLt
  have hrow : rowField w < 32 := (field w 23 5).isLt
  cases i <;> simp [fromFields, Instr.WellFormed, colFits, rowFits, hcol, hrow]

/-- A word that selects the row of `i` stands for a command of that row. -/
theorem decode_of_selects {i : Instr} {w : Word} (h : i.opcodeRow.selects w = true) :
    decode w = .ok (fromFields w i) := by
  obtain ⟨hop, hz⟩ := (selects_iff i w).1 h
  rw [decode_of_rowOpcode hop, hz]
  rfl

/-- Decoding in one line: a word stands for the command whose row it selects and whose operands are its fields (R77 to
R79). -/
theorem decode_eq_ok_iff {w : Word} {i : Instr} :
    decode w = .ok i ↔ i.opcodeRow.selects w = true ∧ OperandsFrom w i := by
  constructor
  · intro h
    obtain hop | ⟨j, hop⟩ := opOf_cases w
    · cases (decode_of_reservedOpcode hop).symm.trans h
    · obtain ⟨hz, rfl⟩ := unlessReserved_eq_ok.1 ((decode_of_rowOpcode hop).symm.trans h)
      rw [opcodeRow_fromFields]
      exact ⟨(selects_iff j w).2 ⟨hop, hz⟩, operandsFrom_fromFields w j⟩
  · rintro ⟨hsel, hi⟩
    rw [decode_of_selects hsel, fromFields_eq_self_iff.2 hi]

end Sys2Proof.Machine
end

section
/-! PROOFS. The fields of a command's word are its operands, and its reserved field is zero (R72 to R77). -/

namespace Sys2Proof.Machine

section
variable {op row col : Nat} (hrow : row < 32) (hcol : col < 128)
include hrow hcol

theorem formatK_decoded :
    reservedK (formatK op row col) = true ∧ rowField (formatK op row col) = row ∧
      colField (formatK op row col) = col := by
  rw [reservedK_iff, rowField_eq, colField_eq, formatK, BitVec.toNat_ofNat]
  omega

theorem formatA_decoded (attr ch : Byte) :
    rowField (formatA op row col attr ch) = row ∧ colField (formatA op row col attr ch) = col ∧
      attrField (formatA op row col attr ch) = attr ∧ chField (formatA op row col attr ch) = ch := by
  have hattr := attr.isLt
  have hch := ch.isLt
  rw [← BitVec.toNat_inj (x := attrField _), ← BitVec.toNat_inj (x := chField _), rowField_eq, colField_eq,
    attrField_toNat, chField_toNat, formatA, BitVec.toNat_ofNat]
  omega

end

theorem formatB_decoded (op : Nat) (off : Half) :
    reservedBC (formatB op off) = true ∧ offField (formatB op off) = off := by
  have hoff := off.isLt
  rw [reservedBC_iff, ← BitVec.toNat_inj, offField_toNat, formatB, BitVec.toNat_ofNat]
  omega

theorem formatC_decoded (op : Nat) (attr ch : Byte) :
    reservedBC (formatC op attr ch) = true ∧ attrField (formatC op attr ch) = attr ∧
      chField (formatC op attr ch) = ch := by
  have hattr := attr.isLt
  have hch := ch.isLt
  rw [reservedBC_iff, ← BitVec.toNat_inj, ← BitVec.toNat_inj, attrField_toNat, chField_toNat, formatC,
    BitVec.toNat_ofNat]
  omega

theorem opOf_encode {i : Instr} (h : i.WellFormed = true) : opOf (encode i) = (rowOpcode i).toNat := by
  have hrow : opOf i.opcodeRow.matchWord = (rowOpcode i).toNat := by
    cases i <;> simp only [Instr.opcodeRow, rowOpcode] <;> decide
  rw [← hrow]
  cases i with
  | offsetOf col row => exact Laws.OpField.offsetOf col row h
  | rowOf off => exact Laws.OpField.rowOf off h
  | cellAddr off => exact Laws.OpField.cellAddr off h
  | getCursor => exact Laws.OpField.getCursor h
  | setCursor off => exact Laws.OpField.setCursor off h
  | scroll off => exact Laws.OpField.scroll off h
  | putc ch attr => exact Laws.OpField.putc ch attr h
  | putcAt ch attr col row => exact Laws.OpField.putcAt ch attr col row h
  | clear => exact Laws.OpField.clear h

theorem rowReservedZero_and_fromFields_encode {i : Instr} (h : i.WellFormed = true) :
    rowReservedZero (encode i) i = true ∧ fromFields (encode i) i = i := by
  cases i with
  | offsetOf col row =>
    simp only [Instr.WellFormed, colFits, rowFits, Bool.and_eq_true, decide_eq_true_eq] at h
    obtain ⟨hz, hr, hc⟩ := formatK_decoded (op := 1) h.2 h.1
    exact ⟨hz, congrArg₂ Instr.offsetOf hc hr⟩
  | rowOf off => exact (formatB_decoded 2 off).imp_right (congrArg Instr.rowOf)
  | cellAddr off => exact (formatB_decoded 3 off).imp_right (congrArg Instr.cellAddr)
  | getCursor => exact ⟨by decide, rfl⟩
  | setCursor off => exact (formatB_decoded 5 off).imp_right (congrArg Instr.setCursor)
  | scroll off => exact (formatB_decoded 6 off).imp_right (congrArg Instr.scroll)
  | putc ch attr =>
    obtain ⟨hz, ha, hch⟩ := formatC_decoded 7 attr ch
    exact ⟨hz, congrArg₂ Instr.putc hch ha⟩
  | putcAt ch attr col row =>
    simp only [Instr.WellFormed, colFits, rowFits, Bool.and_eq_true, decide_eq_true_eq] at h
    obtain ⟨hr, hc, ha, hch⟩ := formatA_decoded (op := 8) h.2 h.1 attr ch
    refine ⟨rfl, ?_⟩
    simp only [encode, fromFields, hr, hc, ha, hch]
  | clear => exact ⟨by decide, rfl⟩

/-- No operand of a well-formed command is lost in its word (R72 to R79). -/
theorem decode_encode {i : Instr} (h : i.WellFormed = true) : decode (encode i) = .ok i := by
  obtain ⟨hz, hi⟩ := rowReservedZero_and_fromFields_encode h
  rw [decode_of_rowOpcode (opOf_encode h), hz, hi]
  rfl

end Sys2Proof.Machine
end

section
/-! PROOFS. The statements of 30_encoding about command words: R70 to R81. -/

namespace Sys2Proof.Machine

/-- Settles O1: the word of a command has the opcode, the zero reserved field and the fields of its format. -/
theorem decodeOfEncodeIsTheCommand : Obligations.DecodeOfEncodeIsTheCommand := fun _ h => decode_encode h

/-- Settles O2: a legal word is put together again from its fields, and operands read from fields fit them. -/
theorem encodeOfDecodeIsTheWord : Obligations.EncodeOfDecodeIsTheWord := by
  intro w i h
  have hi : fromFields w i = i := fromFields_eq_self_iff.2 (decode_eq_ok_iff.1 h).2
  exact ⟨encode_of_decode h, hi ▸ fromFields_wellFormed w i⟩

/-- Settles O3: a word is decoded exactly when it selects a row of the table. -/
theorem submittedWordRunsItsRowOrIsIllegal : Obligations.SubmittedWordRunsItsRowOrIsIllegal := by
  intro s w rest hs
  refine ⟨fun r hr hsel => ?_, fun hnone => ?_⟩
  · obtain ⟨i, rfl⟩ := mem_opcodeTable_iff.1 hr
    have hd := decode_of_selects hsel
    exact ⟨_, hd, opcodeRow_fromFields w i, operandsFrom_fromFields w i, step_of_decode_ok hs hd⟩
  · cases hd : decode w with
    | ok i =>
      have hsel := (decode_eq_ok_iff.1 hd).1
      rw [hnone _ (mem_opcodeTable_iff.2 ⟨i, rfl⟩)] at hsel
      cases hsel
    | error e => exact step_of_decode_error hs hd

/-- Settles O4: a word that selects a row is decoded to a command of that row, and it is decoded to one command. -/
theorem opcodeRowsAreDisjoint : Obligations.OpcodeRowsAreDisjoint := by
  intro w r q hr hq hselr hselq
  obtain ⟨i, rfl⟩ := mem_opcodeTable_iff.1 hr
  obtain ⟨j, rfl⟩ := mem_opcodeTable_iff.1 hq
  have hij : fromFields w i = fromFields w j :=
    Except.ok.inj ((decode_of_selects hselr).symm.trans (decode_of_selects hselq))
  rw [← opcodeRow_fromFields w i, hij, opcodeRow_fromFields]

/-- Settles O5: the decoder has no row for such a word, and a step with it ends in fault entry. -/
theorem reservedOpcodesAreIllegal : Obligations.ReservedOpcodesAreIllegal := by
  intro w hop
  have hd := decode_of_reservedOpcode hop
  exact ⟨hd, fun s rest hs => ⟨_, step_of_decode_error hs hd, rfl, rfl, rfl⟩⟩

/-- Settles O6: each defined opcode is that of a row, and the row names the reserved field. -/
theorem reservedFieldsMustBeZero : Obligations.ReservedFieldsMustBeZero := by
  intro w
  refine ⟨fun hop hz => ?_, fun hop hz => ?_, fun hop hz => ?_⟩
  · exact decode_of_reservedField (.offsetOf 0 0) hop (decide_eq_false hz)
  · have hz : reservedBC w = false := decide_eq_false hz
    simp only [List.mem_cons, List.not_mem_nil, or_false] at hop
    obtain hop | hop | hop | hop | hop := hop
    · exact decode_of_reservedField (.rowOf 0) hop hz
    · exact decode_of_reservedField (.cellAddr 0) hop hz
    · exact decode_of_reservedField (.setCursor 0) hop hz
    · exact decode_of_reservedField (.scroll 0) hop hz
    · exact decode_of_reservedField (.putc 0 0) hop hz
  · have hz : reservedN w = false := decide_eq_false hz
    simp only [List.mem_cons, List.not_mem_nil, or_false] at hop
    obtain hop | hop := hop
    · exact decode_of_reservedField .getCursor hop hz
    · exact decode_of_reservedField .clear hop hz

end Sys2Proof.Machine
end

section
/-! PROOFS. The assembler (R83 to R85): the word of a line by the table of R83, and the commands of a pseudo-instruction. -/

namespace Sys2Proof.Machine

/-! ### The formats as alternatives of shifted operands -/

/-- A field that lies below bit `k` is added to a word that is zero there. -/
theorem ofNat_or_ofNat_of_lt {a b : Nat} (k : Nat) (ha : a % 2 ^ k = 0) (hb : b < 2 ^ k) :
    BitVec.ofNat 32 a ||| BitVec.ofNat 32 b = BitVec.ofNat 32 (a + b) := by
  rw [← BitVec.ofNat_or, ← Nat.mul_div_cancel' (Nat.dvd_of_mod_eq_zero ha), Nat.two_pow_add_eq_or_of_lt hb]

theorem ofNat_shiftLeft (n k : Nat) : BitVec.ofNat 32 n <<< k = BitVec.ofNat 32 (n * 2 ^ k) := by
  apply BitVec.eq_of_toNat_eq
  simp [BitVec.toNat_shiftLeft, Nat.shiftLeft_eq]

theorem toNat_byte {n : Nat} (h : n ≤ 0xFF) : (BitVec.ofNat 8 n).toNat = n := Nat.mod_eq_of_lt (by omega)

theorem toNat_half {n : Nat} (h : n ≤ 0xFFFF) : (BitVec.ofNat 16 n).toNat = n := Nat.mod_eq_of_lt (by omega)

section
variable (op : Nat) {off ch attr col row : Nat}

theorem formatK_eq_or (hcol : col ≤ 127) (hrow : row ≤ 31) :
    formatK op row col =
      BitVec.ofNat 32 (op * 2 ^ 28) ||| BitVec.ofNat 32 row <<< 23 ||| BitVec.ofNat 32 col <<< 16 := by
  rw [ofNat_shiftLeft, ofNat_shiftLeft, ofNat_or_ofNat_of_lt 28 (by omega) (by omega),
    ofNat_or_ofNat_of_lt 23 (by omega) (by omega), formatK]

theorem formatA_eq_or (hch : ch ≤ 0xFF) (hattr : attr ≤ 0xFF) (hcol : col ≤ 127) (hrow : row ≤ 31) :
    formatA op row col (BitVec.ofNat 8 attr) (BitVec.ofNat 8 ch) =
      BitVec.ofNat 32 (op * 2 ^ 28) ||| BitVec.ofNat 32 row <<< 23 ||| BitVec.ofNat 32 col <<< 16 |||
        BitVec.ofNat 32 attr <<< 8 ||| BitVec.ofNat 32 ch := by
  rw [← formatK_eq_or op hcol hrow, formatK, ofNat_shiftLeft, ofNat_or_ofNat_of_lt 16 (by omega) (by omega),
    ofNat_or_ofNat_of_lt 8 (by omega) (by omega), formatA, toNat_byte hattr, toNat_byte hch]

theorem formatB_eq_or (hoff : off ≤ 0xFFFF) :
    formatB op (BitVec.ofNat 16 off) = BitVec.ofNat 32 (op * 2 ^ 28) ||| BitVec.ofNat 32 off := by
  rw [ofNat_or_ofNat_of_lt 16 (by omega) (by omega), formatB, toNat_half hoff]

theorem formatC_eq_or (hch : ch ≤ 0xFF) (hattr : attr ≤ 0xFF) :
    formatC op (BitVec.ofNat 8 attr) (BitVec.ofNat 8 ch) =
      BitVec.ofNat 32 (op * 2 ^ 28) ||| BitVec.ofNat 32 attr <<< 8 ||| BitVec.ofNat 32 ch := by
  rw [ofNat_shiftLeft, ofNat_or_ofNat_of_lt 16 (by omega) (by omega), ofNat_or_ofNat_of_lt 8 (by omega) (by omega),
    formatC, toNat_byte hattr, toNat_byte hch]

end

/-! ### The lines of R83 -/

theorem colFits_iff {col : Nat} : colFits col = true ↔ col ≤ 127 := by
  rw [colFits, decide_eq_true_iff, Nat.lt_succ_iff]

theorem rowFits_iff {row : Nat} : rowFits row = true ↔ row ≤ 31 := by
  rw [rowFits, decide_eq_true_iff, Nat.lt_succ_iff]

theorem offFits_iff {off : Nat} : offFits off = true ↔ off ≤ 0xFFFF := decide_eq_true_iff

theorem byteFits_iff {b : Nat} : byteFits b = true ↔ b ≤ 0xFF := decide_eq_true_iff

/-- A line of one command: its word, or the refusal, by the condition `p` on its operands. -/
theorem assemble_ifFits {fits : Bool} {i : Instr} {p : Prop} [Decidable p] {w : Word} (hfits : fits = true ↔ p)
    (hw : p → encode i = w) : (ifFits fits i).map (List.map encode) = if p then some [w] else none := by
  by_cases hp : p
  · simp [ifFits, hfits.2 hp, hp, hw hp]
  · simp [ifFits, mt hfits.1 hp, hp]

theorem assemble_offsetOf (col row : Nat) :
    (AsmLine.offsetOf col row).assemble =
      if col ≤ 127 ∧ row ≤ 31 then
        some [0x10000000#32 ||| BitVec.ofNat 32 row <<< 23 ||| BitVec.ofNat 32 col <<< 16] else none := by
  refine assemble_ifFits ?_ fun ⟨hcol, hrow⟩ => formatK_eq_or 1 hcol hrow
  rw [Bool.and_eq_true, colFits_iff, rowFits_iff]

theorem assemble_putc (ch attr : Nat) :
    (AsmLine.putc ch (some attr)).assemble =
      if ch ≤ 0xFF ∧ attr ≤ 0xFF then
        some [0x70000000#32 ||| BitVec.ofNat 32 attr <<< 8 ||| BitVec.ofNat 32 ch] else none := by
  refine assemble_ifFits ?_ fun ⟨hch, hattr⟩ => formatC_eq_or 7 hch hattr
  rw [Bool.and_eq_true, byteFits_iff, byteFits_iff, attrOrDefault, Option.getD_some]

theorem assemble_putcAt (ch attr col row : Nat) :
    (AsmLine.putcAt ch (some attr) col row).assemble =
      if ch ≤ 0xFF ∧ attr ≤ 0xFF ∧ col ≤ 127 ∧ row ≤ 31 then
        some [0x80000000#32 ||| BitVec.ofNat 32 row <<< 23 ||| BitVec.ofNat 32 col <<< 16 |||
          BitVec.ofNat 32 attr <<< 8 ||| BitVec.ofNat 32 ch] else none := by
  refine assemble_ifFits ?_ fun ⟨hch, hattr, hcol, hrow⟩ => formatA_eq_or 8 hch hattr hcol hrow
  simp only [Bool.and_eq_true, byteFits_iff, colFits_iff, rowFits_iff, attrOrDefault, Option.getD_some, and_assoc]

/-- Settles O56: the word of each line is its format's, written with the operands shifted to their fields. -/
theorem assemblerWords : Obligations.AssemblerWords := by
  refine ⟨assemble_offsetOf, fun off => ⟨?_, ?_, ?_, ?_⟩, rfl, rfl, fun ch attr => ⟨assemble_putc ch attr, rfl⟩,
    fun ch attr col row => ⟨assemble_putcAt ch attr col row, rfl⟩⟩
  · exact assemble_ifFits offFits_iff (formatB_eq_or 2)
  · exact assemble_ifFits offFits_iff (formatB_eq_or 3)
  · exact assemble_ifFits offFits_iff (formatB_eq_or 5)
  · exact assemble_ifFits offFits_iff (formatB_eq_or 6)

/-! ### The commands of a line (R83, R84) -/

theorem ifFits_wellFormed {fits : Bool} {i : Instr} (hi : fits = true → i.WellFormed = true) {is : List Instr}
    (h : ifFits fits i = some is) : ∀ j ∈ is, j.WellFormed = true := by
  obtain ⟨hfits, h⟩ := Option.ite_none_right_eq_some.1 h
  cases h
  simpa using hi hfits

theorem expandPrint_wellFormed (text : List Byte) : ∀ i ∈ expandPrint text, i.WellFormed = true := by
  intro i hi
  obtain ⟨b, -, rfl⟩ := List.mem_map.1 hi
  rfl

theorem expandPrintLine_wellFormed (text : Option (List Byte)) : ∀ i ∈ expandPrintLine text, i.WellFormed = true := by
  intro i hi
  obtain hi | hi := List.mem_append.1 hi
  · exact expandPrint_wellFormed _ i hi
  · cases List.mem_singleton.1 hi
    rfl

theorem expandPrintAt_wellFormed {text : List Byte} {col row : Int} {is : List Instr}
    (h : expandPrintAt text col row = some is) : ∀ i ∈ is, i.WellFormed = true := by
  unfold expandPrintAt at h
  split_ifs at h
  · cases h
    exact List.forall_mem_cons.2 ⟨rfl, expandPrint_wellFormed text⟩
  · cases h
    exact expandPrint_wellFormed text

/-- Every command the assembler makes fits its word. -/
theorem expand_wellFormed {l : AsmLine} {is : List Instr} (h : l.expand = some is) :
    ∀ i ∈ is, i.WellFormed = true := by
  cases l with
  | offsetOf col row => exact ifFits_wellFormed (i := .offsetOf col row) id h
  | rowOf off => exact ifFits_wellFormed (fun _ => rfl) h
  | cellAddr off => exact ifFits_wellFormed (fun _ => rfl) h
  | getCursor => cases h; simp [Instr.WellFormed]
  | setCursor off => exact ifFits_wellFormed (fun _ => rfl) h
  | scroll off => exact ifFits_wellFormed (fun _ => rfl) h
  | putc ch attr => exact ifFits_wellFormed (fun _ => rfl) h
  | putcAt ch attr col row =>
    refine ifFits_wellFormed (fun hfits => ?_) h
    simp only [Bool.and_eq_true] at hfits
    obtain ⟨⟨-, hcol⟩, hrow⟩ := hfits
    exact Bool.and_eq_true_iff.2 ⟨hcol, hrow⟩
  | clear => cases h; simp [Instr.WellFormed]
  | print text => cases h; exact expandPrint_wellFormed text
  | printAt text col row => exact expandPrintAt_wellFormed h
  | printLine text => cases h; exact expandPrintLine_wellFormed text

/-! ### The pseudo-instructions (R84, R85) -/

theorem cText_append_zero {before : List Byte} (h : (0 : Byte) ∉ before) (after : List Byte) :
    cText (before ++ 0 :: after) = before := by
  have hne : ∀ b ∈ before, (b != 0) = true := fun b hb => bne_iff_ne.2 fun h0 => h (h0 ▸ hb)
  rw [cText, List.takeWhile_append_of_pos hne]
  simp

theorem cText_eq_self {text : List Byte} (h : (0 : Byte) ∉ text) : cText text = text :=
  List.takeWhile_eq_self_iff.2 fun _ hb => bne_iff_ne.2 fun h0 => h (h0 ▸ hb)

theorem expandPrintAt_inGrid (text : List Byte) {col row : Nat} (hcol : col < 80) (hrow : row < 25) :
    expandPrintAt text col row = some (.setCursor (BitVec.ofNat 16 (row * 80 + col)) :: expandPrint text) := by
  rw [expandPrintAt, if_pos ⟨by omega, by omega⟩, Int.toNat_natCast, Int.toNat_natCast,
    if_pos (coordInGrid_iff.2 ⟨hcol, hrow⟩), offsetOf_eq]

theorem expandPrintAt_outsideGrid (text : List Byte) {col row : Nat} (h : 80 ≤ col ∨ 25 ≤ row) :
    expandPrintAt text col row = none := by
  rw [expandPrintAt, if_pos ⟨by omega, by omega⟩, Int.toNat_natCast, Int.toNat_natCast,
    if_neg (mt coordInGrid_iff.1 (by omega))]

theorem expandPrintAt_negative (text : List Byte) {col row : Int} (h : col < 0 ∨ row < 0) :
    expandPrintAt text col row = some (expandPrint text) := if_neg (by omega)

/-- Settles O57: the text stops at its first zero byte, and the coordinates of `print_at` are inside the grid, beyond it
or negative. -/
theorem pseudoInstructionExpansions : Obligations.PseudoInstructionExpansions := by
  refine ⟨fun l is h => expand_wellFormed h, fun before after h => ⟨?_, ?_, ?_⟩, rfl,
    fun text col row => ⟨fun hc hc' hr hr' => ?_, fun hc hr hout => ?_, expandPrintAt_negative text⟩⟩
  · simp only [AsmLine.expand, expandPrint, cText_eq_self h]
    rfl
  · simp only [AsmLine.expand, expandPrint, cText_append_zero h]
    rfl
  · simp only [AsmLine.expand, expandPrintLine, expandPrint, Option.getD_some, cText_eq_self h]
    rfl
  · lift col to Nat using hc
    lift row to Nat using hr
    refine (expandPrintAt_inGrid text (by omega) (by omega)).trans ?_
    rw [← BitVec.ofInt_natCast]
    push_cast
    rfl
  · lift col to Nat using hc
    lift row to Nat using hr
    exact expandPrintAt_outsideGrid text (by omega)

end Sys2Proof.Machine
end

section
/-! PROOFS. The statements of 40_address_calc: the three address commands, the laws of the offset functions, and the
commands that leave the buffer alone. -/

namespace Sys2Proof.Machine

/-! ### The address commands -/

/-- The words of a row, as R78 writes its mask and match, are the row's command with the operands of R77. -/
theorem decodesAs_opcodeRow (i : Instr) : DecodesAs i.opcodeRow.mask i.opcodeRow.matchWord fun w => fromFields w i :=
  fun _ h => decode_of_selects (decide_eq_true h)

/-- An address command writes its value to `RESULT` and changes nothing else (R100); a value below 2 to the 32 is
held exactly. -/
theorem answerWith_result {v : Nat} (hv : v < 2 ^ 32) (s : State) :
    ∃ t, answerWith v s = .next t ∧ t = { s with result := t.result, fsm := .idle } ∧ t.result.toNat = v :=
  ⟨_, rfl, rfl, Nat.mod_eq_of_lt hv⟩

/-- Settles O28: an offset of encodable coordinates is at most 2607 (R101), so `RESULT` holds it exactly. -/
theorem offsetOfWritesTheOffset : Obligations.OffsetOfWritesTheOffset := by
  refine ⟨decodesAs_opcodeRow (.offsetOf 0 0), fun col row s hcol hrow => ?_, rfl, rfl, rfl, rfl, rfl⟩
  have hfits : offsetOf col row < 2 ^ 32 := by
    rw [offsetOf_eq]
    omega
  exact answerWith_result hfits s

/-- Settles O29: a quotient of a 16-bit offset fits in `RESULT`. -/
theorem rowOfWritesTheRow : Obligations.RowOfWritesTheRow := by
  refine ⟨decodesAs_opcodeRow (.rowOf 0), fun off s => ?_, rfl, rfl, rfl, rfl, rfl, rfl⟩
  have hfits : rowOf off.toNat < 2 ^ 32 := by
    have hoff := off.isLt
    rw [rowOf_eq]
    omega
  exact answerWith_result hfits s

/-- Settles O30: the address of every 16-bit offset, in the grid or not, fits in `RESULT`. -/
theorem cellAddrWritesTheAddress : Obligations.CellAddrWritesTheAddress := by
  refine ⟨decodesAs_opcodeRow (.cellAddr 0), fun off s => ?_, rfl, rfl, rfl, rfl⟩
  have hfits : cellAddr off.toNat < 2 ^ 32 := by
    have hoff := off.isLt
    rw [cellAddr_eq]
    omega
  exact answerWith_result hfits s

/-! ### The offset functions -/

/-- The columns past the last alias into the rows below (R105). -/
theorem rowOf_offsetOf (col row : Nat) : rowOf (offsetOf col row) = row + col / 80 := by
  rw [rowOf_eq, offsetOf_eq]
  omega

/-- In the row itself there is nothing to carry (R105). -/
theorem rowOf_offsetOf_of_lt {col : Nat} (h : col < 80) (row : Nat) : rowOf (offsetOf col row) = row := by
  rw [rowOf_offsetOf, Nat.div_eq_of_lt h, Nat.add_zero]

/-- Settles O31: the row of an offset is the row it was made from and the whole rows in the column. -/
theorem rowOfInvertsOffsetOf : Obligations.RowOfInvertsOffsetOf :=
  fun col row => ⟨fun h => rowOf_offsetOf_of_lt h row, fun _ => rowOf_offsetOf col row⟩

/-- Settles O32: `LineEnd` is the offset of column 79 of the row, so R105 gives its row. -/
theorem lineEndIsTheLastColumn : Obligations.LineEndIsTheLastColumn := by
  refine fun o => ⟨lineEnd_eq o, fun ho => ⟨?_, ?_, rowOf_offsetOf_of_lt (by decide) (rowOf o)⟩⟩
  · rw [lineEnd_eq]
    omega
  · rw [lineEnd_eq, rowOf_eq]
    omega

/-! ### The buffer -/

/-- A command that halts has not written the buffer (R205). -/
theorem Ending.vram_of_halted {i : Instr} {s t : State} (h : Ending s i t) (hhalt : t.fsm = .halted) :
    t.vram = s.vram := by
  cases h with
  | completed hc => cases hc.idle.symm.trans hhalt
  | coordRange => rfl
  | outOfGrid => rfl

/-- Settles O25: a faulting command does not reach its writes, and the state each of the five others leaves has the buffer
it found. -/
theorem bufferKeptBySomeCommands : Obligations.BufferKeptBySomeCommands := by
  intro i s t h hcase
  obtain hhalt | ⟨col, row, rfl⟩ | ⟨off, rfl⟩ | ⟨off, rfl⟩ | rfl | ⟨off, rfl⟩ := hcase
  · exact (ending_of_exec h).vram_of_halted hhalt
  · cases h; rfl
  · cases h; rfl
  · cases h; rfl
  · cases (execGetCursor_eq s).symm.trans h; rfl
  · cases (execSetCursor_eq off s).symm.trans h; rfl

end Sys2Proof.Machine
end

section
/-! PROOFS. The statements of 41_cursor_protocol about the sub-states of R121: one port transaction in each. -/

namespace Sys2Proof.Machine

/-! ### The port transactions (R48) -/

/-- With the latch at 0x0E a write to the data port is to the cursor's high byte. -/
theorem portWrite_data_high {s : State} (h : s.crtcIndex = Config.curHiIndex) (v : Byte) :
    portWrite Config.crtcDataPort v s =
      .next { s with curHi := v, busLog := .portWrite Config.crtcDataPort v :: s.busLog } := by
  rw [portWrite, if_neg (by decide), if_pos rfl, if_pos h]
  rfl

/-- With the latch at 0x0F a write to the data port is to the cursor's low byte. -/
theorem portWrite_data_low {s : State} (h : s.crtcIndex = Config.curLoIndex) (v : Byte) :
    portWrite Config.crtcDataPort v s =
      .next { s with curLo := v, busLog := .portWrite Config.crtcDataPort v :: s.busLog } := by
  rw [portWrite, if_neg (by decide), if_pos rfl, if_neg (by rw [h]; decide), if_pos h]
  rfl

/-- With the latch at 0x0E a read of the data port gives the cursor's high byte. -/
theorem portRead_data_high {s : State} (h : s.crtcIndex = Config.curHiIndex) :
    portRead Config.crtcDataPort s =
      .next (s.curHi, { s with busLog := .portRead Config.crtcDataPort s.curHi :: s.busLog }) := by
  rw [portRead, if_pos rfl, if_pos h]
  rfl

/-- With the latch at 0x0F a read of the data port gives the cursor's low byte. -/
theorem portRead_data_low {s : State} (h : s.crtcIndex = Config.curLoIndex) :
    portRead Config.crtcDataPort s =
      .next (s.curLo, { s with busLog := .portRead Config.crtcDataPort s.curLo :: s.busLog }) := by
  rw [portRead, if_pos rfl, if_neg (by rw [h]; decide), if_pos h]
  rfl

/-! ### The sub-states of a cursor write -/

/-- `S1` (R121). -/
theorem writeSelectHigh_eq (s : State) :
    writeSelectHigh s = .next
      { s with
        crtcIndex := Config.curHiIndex
        fsm := .s2
        busLog := .portWrite Config.crtcIndexPort Config.curHiIndex :: s.busLog } := rfl

/-- `S2` (R121), entered with the latch at 0x0E. -/
theorem writeTransferHigh_eq {s : State} (h : s.crtcIndex = Config.curHiIndex) (v : Half) :
    writeTransferHigh v s = .next
      { s with
        curHi := hiByte v
        fsm := .s3
        busLog := .portWrite Config.crtcDataPort (hiByte v) :: s.busLog } := by
  rw [writeTransferHigh, portWrite_data_high h]
  rfl

/-- `S3` (R121). -/
theorem writeSelectLow_eq (s : State) :
    writeSelectLow s = .next
      { s with
        crtcIndex := Config.curLoIndex
        fsm := .s4
        busLog := .portWrite Config.crtcIndexPort Config.curLoIndex :: s.busLog } := rfl

/-- `S4` (R121), entered with the latch at 0x0F. -/
theorem writeTransferLow_eq {s : State} (h : s.crtcIndex = Config.curLoIndex) (v : Half) :
    writeTransferLow v s = .next
      { s with
        curLo := loByte v
        fsm := .exec
        busLog := .portWrite Config.crtcDataPort (loByte v) :: s.busLog } := by
  rw [writeTransferLow, portWrite_data_low h]
  rfl

/-- Settles O36, sub-state by sub-state: the high byte is replaced in `S2` and the low byte in `S4`. `CursorWrite` enters `S1`
by itself, so the premise on `FSM` is not used. -/
theorem cursorWriteSubStates : Obligations.CursorWriteSubStates := fun v s _ =>
  ⟨_, _, _, _,
    writeSelectHigh_eq s, rfl, rfl, rfl,
    writeTransferHigh_eq rfl v, rfl, rfl, rfl,
    writeSelectLow_eq _, rfl, rfl, rfl,
    writeTransferLow_eq rfl v, rfl, joinBytes_split v, rfl,
    cursorWrite_eq v s⟩

/-! ### The sub-states of a cursor read -/

/-- `G1` (R121). -/
theorem readSelectHigh_eq (s : State) :
    readSelectHigh s = .next
      { s with
        crtcIndex := Config.curHiIndex
        fsm := .g2
        busLog := .portWrite Config.crtcIndexPort Config.curHiIndex :: s.busLog } := rfl

/-- `G2` (R121), entered with the latch at 0x0E. -/
theorem readTransferHigh_eq {s : State} (h : s.crtcIndex = Config.curHiIndex) :
    readTransferHigh s = .next (s.curHi,
      { s with fsm := .g3, busLog := .portRead Config.crtcDataPort s.curHi :: s.busLog }) := by
  rw [readTransferHigh, portRead_data_high h]
  rfl

/-- `G3` (R121). -/
theorem readSelectLow_eq (s : State) :
    readSelectLow s = .next
      { s with
        crtcIndex := Config.curLoIndex
        fsm := .g4
        busLog := .portWrite Config.crtcIndexPort Config.curLoIndex :: s.busLog } := rfl

/-- `G4` (R121), entered with the latch at 0x0F. -/
theorem readTransferLow_eq {s : State} (h : s.crtcIndex = Config.curLoIndex) :
    readTransferLow s = .next (s.curLo,
      { s with fsm := .exec, busLog := .portRead Config.crtcDataPort s.curLo :: s.busLog }) := by
  rw [readTransferLow, portRead_data_low h]
  rfl

/-- The transfers of a cursor read move the bytes of the two cursor registers (R122). -/
theorem cursorReadTxns_cursor (s : State) :
    cursorReadTxns s.cursor =
      [.portWrite Config.crtcIndexPort Config.curHiIndex, .portRead Config.crtcDataPort s.curHi,
       .portWrite Config.crtcIndexPort Config.curLoIndex, .portRead Config.crtcDataPort s.curLo] := by
  rw [cursorReadTxns, hiByte_cursor, loByte_cursor]

/-- Settles O37, sub-state by sub-state: the latch selects the byte each transfer reads, and no cursor byte is written.
`CursorRead` enters `G1` by itself, so the premise on `FSM` is not used. -/
theorem cursorReadSubStates : Obligations.CursorReadSubStates := fun s _ =>
  ⟨_, _, _, _, _, _,
    readSelectHigh_eq s, rfl, rfl,
    readTransferHigh_eq rfl, rfl, rfl, rfl,
    readSelectLow_eq _, rfl, rfl,
    readTransferLow_eq rfl, rfl, rfl, rfl,
    rfl, by rw [cursorRead_eq, cursorReadTxns_cursor]; rfl⟩

end Sys2Proof.Machine
end

section
/-! PROOFS. The statements of 41_cursor_protocol about commands: GET_CURSOR, SET_CURSOR, their round trip, and what every
command does with the cursor and the latch. -/

namespace Sys2Proof.Machine

/-! ### GET_CURSOR and SET_CURSOR -/

/-- The cursor as a number (R10, R28). -/
theorem cursor_toNat (s : State) : s.cursor.toNat = s.curHi.toNat * 256 + s.curLo.toNat := by
  rw [State.cursor, joinBytes, BitVec.toNat_append, ← Nat.shiftLeft_add_eq_or_of_lt s.curLo.isLt, Nat.shiftLeft_eq]

/-- Settles O33: a cursor read changes the latch and the record only, and a 16-bit cursor fits in `RESULT`. -/
theorem getCursorReadsTheRegisters : Obligations.GetCursorReadsTheRegisters := by
  refine ⟨decodesAs_opcodeRow .getCursor, fun s => ⟨_, execGetCursor_eq s, rfl, ?_, ?_⟩⟩
  · rw [BitVec.toNat_setWidth_of_le (by decide), cursor_toNat]
  · rw [Performed, cursorReadTxns_cursor]
    rfl

/-- Settles O34: a cursor write stores the operand's two bytes unchecked. -/
theorem setCursorWritesTheRegisters : Obligations.SetCursorWritesTheRegisters :=
  ⟨decodesAs_opcodeRow (.setCursor 0), fun off s => ⟨_, execSetCursor_eq off s, rfl, rfl⟩⟩

/-- A step with the word of SET_CURSOR stores the operand and accepts the next word (R125). -/
theorem step_setCursor {x : Half} {rest : List HostAction} {s : State} (hs : Submits (encode (.setCursor x)) rest s) :
    ∃ t, step s = .next t ∧ t.fsm = .idle ∧ t.host = rest ∧ t.cursor = x :=
  ⟨_, (step_of_decode_ok hs (decode_encode rfl)).trans (execSetCursor_eq x _), rfl, rfl, joinBytes_split x⟩

/-- A step with the word of GET_CURSOR answers with the cursor and keeps it (R123). -/
theorem step_getCursor {rest : List HostAction} {s : State} (hs : Submits (encode .getCursor) rest s) :
    ∃ t, step s = .next t ∧ t.result = s.cursor.setWidth 32 ∧ t.cursor = s.cursor ∧ t.host = rest :=
  ⟨_, (step_of_decode_ok hs (decode_encode rfl)).trans (execGetCursor_eq _), rfl, rfl, rfl⟩

/-- Settles O35: GET_CURSOR answers with the cursor SET_CURSOR left. -/
theorem cursorRoundTrip : Obligations.CursorRoundTrip := by
  intro x s rest hf hh
  obtain ⟨t, hset, hidle, hhost, hx⟩ := step_setCursor ⟨hf, hh⟩
  obtain ⟨u, hget, hresult, hkept, hrest⟩ := step_getCursor ⟨hidle, hhost⟩
  rw [hx] at hresult hkept
  exact ⟨t, u, hset, hget, hresult, hkept, hrest⟩

/-! ### The cursor and the latch after a command -/

/-- A command that halts has not written the cursor (R205). -/
theorem Ending.cursor_of_halted {i : Instr} {s t : State} (h : Ending s i t) (hhalt : t.fsm = .halted) :
    t.cursor = s.cursor := by
  cases h with
  | completed hc => cases hc.idle.symm.trans hhalt
  | coordRange => rfl
  | outOfGrid => rfl

/-- Settles O24: the address commands and SCROLL perform no port transaction, a faulting command does not reach its cursor
write, and GET_CURSOR only reads. -/
theorem cursorKeptBySomeCommands : Obligations.CursorKeptBySomeCommands := by
  refine fun s => ⟨fun i t h hcase => ?_, fun i t h hcase => ?_⟩
  · obtain ⟨col, row, rfl⟩ | ⟨off, rfl⟩ | ⟨off, rfl⟩ | ⟨off, rfl⟩ := hcase
    · cases h; exact ⟨rfl, rfl, rfl⟩
    · cases h; exact ⟨rfl, rfl, rfl⟩
    · cases h; exact ⟨rfl, rfl, rfl⟩
    · obtain ⟨m, he, -⟩ := execScroll_eq off s
      cases he.symm.trans h
      exact ⟨rfl, rfl, rfl⟩
  · obtain rfl | hhalt := hcase
    · cases (execGetCursor_eq s).symm.trans h; rfl
    · exact (ending_of_exec h).cursor_of_halted hhalt

/-- The character path ends with a cursor write, so it leaves the latch at 0x0F (R129, R160). -/
theorem putCharAt_latch {o : Half} (ho : inGrid o.toNat = true) {ch attr : Byte} {s t : State}
    (h : (putCharAt o ch attr s).andThen (fun s' => .next (complete s')) = .next t) :
    t.crtcIndex = Config.curLoIndex := by
  obtain ⟨m, he, -⟩ := putCharAt_eq ho ch attr s
  rw [he] at h
  cases h
  rfl

/-- Settles O27: the last port transaction but one of each of these commands selects the low byte, also where PUTC faults
after its cursor read. -/
theorem indexLatchAfterCursorCommands : Obligations.IndexLatchAfterCursorCommands := by
  intro i s t h hcase
  obtain rfl | ⟨off, rfl⟩ | ⟨ch, attr, rfl⟩ | rfl | ⟨ch, attr, col, row, rfl, hidle⟩ := hcase
  · cases (execGetCursor_eq s).symm.trans h; rfl
  · cases (execSetCursor_eq off s).symm.trans h; rfl
  · cases hg : inGrid s.cursor.toNat with
    | true => exact putCharAt_latch hg ((execPutc_inGrid hg ch attr).symm.trans h)
    | false => cases (execPutc_outOfGrid hg ch attr).symm.trans h; rfl
  · obtain ⟨m, he, -⟩ := execClear_eq s
    cases he.symm.trans h
    rfl
  · cases hg : coordInGrid col row with
    | true => exact putCharAt_latch (offsetOf_half_inGrid hg) ((execPutcAt_inGrid hg ch attr s).symm.trans h)
    | false =>
      cases (execPutcAt_coordRange hg ch attr s).symm.trans h
      cases hidle

end Sys2Proof.Machine
end

section
/-! PROOFS. Said once: how the costs of sequences of transactions add up, and what a scroll costs (R141, R242). -/

namespace Sys2Proof.Machine

/-! ### Adding costs -/

/-- The cost of two sequences performed one after the other, from the cost of each. -/
def BusCost.plus (c d : BusCost) : BusCost :=
  ⟨c.portWrites + d.portWrites, c.portReads + d.portReads, c.memReads + d.memReads, c.memWrites + d.memWrites⟩

theorem BusCost.plus_zero (c : BusCost) : c.plus ⟨0, 0, 0, 0⟩ = c := rfl

theorem BusCost.plus_count (c d : BusCost) (t : Txn) : (c.plus d).count t = c.plus (d.count t) := by
  cases t <;> rfl

theorem BusCost.foldl_count_plus (c d : BusCost) (txns : List Txn) :
    txns.foldl BusCost.count (c.plus d) = c.plus (txns.foldl BusCost.count d) := by
  induction txns generalizing d with
  | nil => rfl
  | cons t txns ih => rw [List.foldl_cons, List.foldl_cons, BusCost.plus_count, ih]

/-- Costs add up (R242). -/
theorem busCost_append (xs ys : List Txn) : busCost (xs ++ ys) = (busCost xs).plus (busCost ys) := by
  rw [busCost, List.foldl_append, ← BusCost.plus_zero (List.foldl _ _ xs), BusCost.foldl_count_plus]
  rfl

/-! ### The cost of a scroll -/

/-- Each byte moved costs one read and one write (R141 (a)). -/
theorem busCost_copyTxns (old : Nat → Byte) (r : Nat) (bs : List Nat) :
    busCost (copyTxns old r bs) = ⟨0, 0, bs.length, bs.length⟩ := by
  induction bs with
  | nil => rfl
  | cons b bs ih =>
    have hone : busCost (copyTxns old r [b]) = ⟨0, 0, 1, 1⟩ := rfl
    rw [← List.singleton_append, copyTxns_append, busCost_append, hone, ih]
    simp [BusCost.plus, Nat.add_comm]

/-- Each row moved costs 160 reads and 160 writes (R141 (a)). -/
theorem busCost_shiftTxns (old : Nat → Byte) (rs : List Nat) :
    busCost (shiftTxns old rs) = ⟨0, 0, rs.length * 160, rs.length * 160⟩ := by
  induction rs with
  | nil => rfl
  | cons r rs ih =>
    have hone : busCost (shiftTxns old [r]) = ⟨0, 0, 160, 160⟩ := by
      rw [shiftTxns, List.flatMap_singleton, busCost_copyTxns]
      rfl
    rw [← List.singleton_append, shiftTxns_append, busCost_append, hone, ih]
    simp [BusCost.plus, Nat.add_mul, Nat.add_comm]

/-- Each cell blanked costs one write: its attribute is kept (R141 (b), R144). -/
theorem busCost_blankTxns (cs : List Nat) : busCost (blankTxns cs) = ⟨0, 0, 0, cs.length⟩ := by
  induction cs with
  | nil => rfl
  | cons c cs ih =>
    have hone : busCost (blankTxns [c]) = ⟨0, 0, 0, 1⟩ := rfl
    have hcons : blankTxns (c :: cs) = blankTxns [c] ++ blankTxns cs := rfl
    rw [hcons, busCost_append, hone, ih]
    simp [BusCost.plus, Nat.add_comm]

/-- One scroll moves 24 rows of 160 bytes and blanks 80 cells, whatever the buffer holds (R142). -/
theorem busCost_scrollTxns (old : Nat → Byte) : busCost (scrollTxns old) = ⟨0, 0, 3840, 3920⟩ := by
  rw [scrollTxns, busCost_append, busCost_shiftTxns, busCost_blankTxns, List.length_range', List.length_range]
  rfl

end Sys2Proof.Machine
end

section
/-! PROOFS. The statements of 42_scrolling: SCROLL whole, and what a scroll makes of every cell. -/

namespace Sys2Proof.Machine

/-! ### SCROLL -/

/-- SCROLL of an offset of the grid: a no-op that answers with its operand (R140, R142). -/
theorem execScroll_inGrid {off : Half} (h : inGrid off.toNat = true) (s : State) :
    execScroll off s = .next { s with off := off, result := off.setWidth 32, fsm := .idle } := by
  have hscroll : scroll (setOff off s).off (setOff off s) = .next (off, setOff off s) := scroll_inGrid h _
  rw [execScroll, scrollOff, hscroll]
  rfl

/-- One row less, held exactly in 16 bits (R141). -/
theorem scrolledOff_toNat {off : Half} (h : 2000 ≤ off.toNat) : (scrolledOff off).toNat = off.toNat - 80 := by
  have hsub : off.toNat - 80 < 2 ^ 16 := by
    have hoff := off.isLt
    omega
  rw [scrolledOff, if_neg (by simp [inGrid_false_iff.2 h])]
  exact Nat.mod_eq_of_lt hsub

/-- SCROLL of an offset outside the grid: one scroll, with everything it does (R141, R142). -/
theorem execScroll_outsideGrid {off : Half} (h : 2000 ≤ off.toNat) (s : State) :
    ∃ m, execScroll off s = .next
        { s with
          result := (scrolledOff off).setWidth 32
          off := scrolledOff off
          fsm := .idle
          vram := m
          busLog := (scrollTxns (Memory.read s.vram)).reverse ++ s.busLog } ∧
      ∀ a, Memory.read m a = scrolledByte (Memory.read s.vram) a := by
  obtain ⟨m, he, hm, -⟩ := execScroll_eq off s
  simp only [inGrid_false_iff.2 h, Bool.false_eq_true, if_false] at he hm
  exact ⟨m, he, hm⟩

/-- Settles O38: the two cases of `Scroll`, and the cost of its transactions. -/
theorem scrollCommand : Obligations.ScrollCommand := by
  refine ⟨decodesAs_opcodeRow (.scroll 0), fun off s h => execScroll_inGrid (inGrid_iff.2 h) s, fun off s h => ?_⟩
  obtain ⟨m, he, hm⟩ := execScroll_outsideGrid h s
  have hoff := scrolledOff_toNat h
  refine ⟨_, he, rfl, ?_, hoff, hm, rfl, _, rfl, busCost_scrollTxns _⟩
  rw [BitVec.toNat_setWidth_of_le (by decide), hoff]

/-! ### The buffer after a scroll, row by row -/

/-- The character byte of a cell, by its row (R42, R45). -/
theorem cellAddr_offsetOf (c r : Nat) : cellAddr (offsetOf c r) = rowByteAddr r (2 * c) := by
  rw [cellAddr_eq, offsetOf_eq, rowByteAddr_eq]
  omega

/-- The attribute byte of a cell, by its row (R42, R45). -/
theorem attrAddr_offsetOf (c r : Nat) : attrAddr (offsetOf c r) = rowByteAddr r (2 * c + 1) := by
  rw [attrAddr_eq, offsetOf_eq, rowByteAddr_eq]
  omega

/-- A byte of the rows 0 to 23 is the one a row below it before (R147). -/
theorem scrolledByte_upperRow (old : Nat → Byte) {r b : Nat} (hr : r < 24) (hb : b < 160) :
    scrolledByte old (rowByteAddr r b) = old (rowByteAddr (r + 1) b) := by
  have hbelow : rowByteAddr r b + 160 = rowByteAddr (r + 1) b := by
    rw [rowByteAddr_eq, rowByteAddr_eq]
    omega
  have hrows : 753664 ≤ rowByteAddr r b ∧ rowByteAddr r b < 757504 := by
    rw [rowByteAddr_eq]
    omega
  rw [scrolledByte_eq, if_pos hrows, hbelow]

/-- A character byte of row 24 is blank (R147). -/
theorem scrolledByte_lastRow_char (old : Nat → Byte) {c : Nat} (hc : c < 80) :
    scrolledByte old (rowByteAddr 24 (2 * c)) = Config.blankChar := by
  have ha := rowByteAddr_eq 24 (2 * c)
  rw [scrolledByte_eq, if_neg (by omega), if_pos (by omega)]

/-- An attribute byte of row 24 is as before (R144, R147). -/
theorem scrolledByte_lastRow_attr (old : Nat → Byte) (c : Nat) :
    scrolledByte old (rowByteAddr 24 (2 * c + 1)) = old (rowByteAddr 24 (2 * c + 1)) := by
  have ha := rowByteAddr_eq 24 (2 * c + 1)
  rw [scrolledByte_eq, if_neg (by omega), if_neg (by omega)]

/-- A byte outside the buffer is as before (R147). -/
theorem scrolledByte_outsideBuffer (old : Nat → Byte) {a : Nat} (h : ¬ inBuffer a = true) :
    scrolledByte old a = old a := by
  rw [inBuffer_iff] at h
  rw [scrolledByte_eq, if_neg (by omega), if_neg (by omega)]

/-- Settles O39: the rows above the last and the two bytes of the last row's cells, each by its rule. -/
theorem scrollMovesRowsUp : Obligations.ScrollMovesRowsUp := by
  intro off s h
  obtain ⟨m, he, hm⟩ := execScroll_outsideGrid h s
  refine ⟨_, he, fun r c hr hc => ?_, fun c hc => ?_, fun a ha => (hm a).trans (scrolledByte_outsideBuffer _ ha)⟩
  · rw [cellAddr_offsetOf, cellAddr_offsetOf, attrAddr_offsetOf, attrAddr_offsetOf]
    exact ⟨(hm _).trans (scrolledByte_upperRow _ hr (by omega)), (hm _).trans (scrolledByte_upperRow _ hr (by omega))⟩
  · rw [cellAddr_offsetOf, attrAddr_offsetOf]
    exact ⟨(hm _).trans (scrolledByte_lastRow_char _ hc), (hm _).trans (scrolledByte_lastRow_attr _ c)⟩

end Sys2Proof.Machine
end

section
/-! PROOFS. Said once: where a character leaves the offset, when it scrolls, what it makes of the bytes, and what it costs
(R160, R164 to R166, R168, R169, R242). -/

namespace Sys2Proof.Machine

/-! ### The offset after a character -/

/-- A newline moves on to the start of the next row (R108, R160). -/
theorem advanced_newline (o : Nat) : advanced o Config.newlineChar = (o / 80 + 1) * 80 := by
  rw [advanced, if_pos rfl, lineEnd_eq]
  omega

/-- Any other character moves on by one (R160, R168). -/
theorem advanced_of_ne_newline {ch : Byte} (h : ch ≠ Config.newlineChar) (o : Nat) : advanced o ch = o + 1 :=
  if_neg h

theorem charScrolls_eq_true_iff {o : Nat} {ch : Byte} : charScrolls o ch = true ↔ 2000 ≤ advanced o ch := by
  rw [charScrolls, Bool.not_eq_true', inGrid_false_iff]

theorem charScrolls_eq_false_iff {o : Nat} {ch : Byte} : charScrolls o ch = false ↔ advanced o ch < 2000 := by
  rw [charScrolls, Bool.not_eq_false', inGrid_iff]

/-- When a character scrolls (R166). -/
theorem charScrolls_iff {o : Nat} (ho : o < 2000) (ch : Byte) :
    charScrolls o ch = true ↔
      (ch ≠ Config.newlineChar ∧ o = 1999) ∨ (ch = Config.newlineChar ∧ 1920 ≤ o) := by
  rw [charScrolls_eq_true_iff]
  by_cases hc : ch = Config.newlineChar
  · subst hc
    rw [advanced_newline]
    simp only [ne_eq, not_true_eq_false, false_and, true_and, false_or]
    omega
  · rw [advanced_of_ne_newline hc]
    simp only [ne_eq, hc, not_false_eq_true, true_and, false_and, or_false]
    omega

/-- Without a scroll the advanced offset is the one kept (R160). -/
theorem charOffset_of_not_scrolls {o : Nat} {ch : Byte} (h : charScrolls o ch = false) :
    charOffset o ch = advanced o ch := by
  rw [charOffset, h]
  rfl

/-- An offset of the grid advances to 2000 at most, so a scroll returns 1920 (R165). -/
theorem charOffset_of_scrolls {o : Nat} (ho : o < 2000) {ch : Byte} (h : charScrolls o ch = true) :
    charOffset o ch = 1920 := by
  have hadv : advanced o ch = 2000 := by
    obtain ⟨hc, rfl⟩ | ⟨rfl, hrow⟩ := (charScrolls_iff ho ch).1 h
    · exact advanced_of_ne_newline hc 1999
    · rw [advanced_newline]
      omega
  rw [charOffset, h, hadv]
  rfl

/-- A character never leaves the offset at 0 or outside the grid (R165). -/
theorem charOffset_range {o : Nat} (ho : o < 2000) (ch : Byte) : 1 ≤ charOffset o ch ∧ charOffset o ch ≤ 1999 := by
  cases h : charScrolls o ch with
  | true =>
    rw [charOffset_of_scrolls ho h]
    omega
  | false =>
    have hlt := charScrolls_eq_false_iff.1 h
    have hpos : 1 ≤ advanced o ch := by
      rw [advanced]
      split <;> omega
    rw [charOffset_of_not_scrolls h]
    omega

/-! ### The bytes after a character -/

theorem cellAddr_inj {o p : Nat} : cellAddr o = cellAddr p ↔ o = p := by
  rw [cellAddr_eq, cellAddr_eq]
  omega

theorem attrAddr_inj {o p : Nat} : attrAddr o = attrAddr p ↔ o = p := by
  rw [attrAddr_eq, attrAddr_eq]
  omega

/-- Character bytes are at even distances from the start of the buffer, attribute bytes at odd ones (R42). -/
theorem attrAddr_ne_cellAddr (o p : Nat) : attrAddr o ≠ cellAddr p := by
  rw [attrAddr_eq, cellAddr_eq]
  omega

/-- A newline draws nothing (R160). -/
theorem drawnByte_newline (old : Nat → Byte) (o : Nat) (attr : Byte) (a : Nat) :
    drawnByte old o Config.newlineChar attr a = old a :=
  if_pos rfl

section
variable {ch : Byte} (hc : ch ≠ Config.newlineChar) (old : Nat → Byte) (o : Nat) (attr : Byte)
include hc

theorem drawnByte_cellAddr : drawnByte old o ch attr (cellAddr o) = ch := by
  rw [drawnByte, if_neg hc, if_pos rfl]

theorem drawnByte_attrAddr : drawnByte old o ch attr (attrAddr o) = attr := by
  rw [drawnByte, if_neg hc, if_neg (attrAddr_ne_cellAddr o o), if_pos rfl]

end

/-- A character is drawn at its cell only (R169). -/
theorem drawnByte_other (old : Nat → Byte) {o a : Nat} (ch attr : Byte) (h : ¬ (a = cellAddr o ∨ a = attrAddr o)) :
    drawnByte old o ch attr a = old a := by
  obtain ⟨hcell, hattr⟩ := not_or.1 h
  rw [drawnByte, if_neg hcell, if_neg hattr, ite_self]

theorem drawnByte_cellAddr_other (old : Nat → Byte) {o p : Nat} (ch attr : Byte) (h : p ≠ o) :
    drawnByte old o ch attr (cellAddr p) = old (cellAddr p) :=
  drawnByte_other old ch attr (not_or.2 ⟨mt cellAddr_inj.1 h, (attrAddr_ne_cellAddr o p).symm⟩)

theorem drawnByte_attrAddr_other (old : Nat → Byte) {o p : Nat} (ch attr : Byte) (h : p ≠ o) :
    drawnByte old o ch attr (attrAddr p) = old (attrAddr p) :=
  drawnByte_other old ch attr (not_or.2 ⟨attrAddr_ne_cellAddr p o, mt attrAddr_inj.1 h⟩)

/-- Without a scroll the buffer stays as drawn (R160). -/
theorem charByte_of_not_scrolls {o : Nat} {ch : Byte} (h : charScrolls o ch = false) (old : Nat → Byte) (attr : Byte)
    (a : Nat) : charByte old o ch attr a = drawnByte old o ch attr a := by
  rw [charByte, h]
  rfl

/-- What is drawn is drawn before the scroll (R164). -/
theorem charByte_of_scrolls {o : Nat} {ch : Byte} (h : charScrolls o ch = true) (old : Nat → Byte) (attr : Byte)
    (a : Nat) : charByte old o ch attr a = scrolledByte (drawnByte old o ch attr) a :=
  if_pos h

/-- A cell above the last row takes the character of the cell below it (R147). -/
theorem scrolledByte_cellAddr (old : Nat → Byte) {o : Nat} (h : o < 1920) :
    scrolledByte old (cellAddr o) = old (cellAddr (o + 80)) := by
  have hbelow : cellAddr o + 160 = cellAddr (o + 80) := by
    rw [cellAddr_eq, cellAddr_eq]
    omega
  have hrows : 753664 ≤ cellAddr o ∧ cellAddr o < 757504 := by
    rw [cellAddr_eq]
    omega
  rw [scrolledByte_eq, if_pos hrows, hbelow]

/-- A cell above the last row takes the attribute of the cell below it (R147). -/
theorem scrolledByte_attrAddr (old : Nat → Byte) {o : Nat} (h : o < 1920) :
    scrolledByte old (attrAddr o) = old (attrAddr (o + 80)) := by
  have hbelow : attrAddr o + 160 = attrAddr (o + 80) := by
    rw [attrAddr_eq, attrAddr_eq]
    omega
  have hrows : 753664 ≤ attrAddr o ∧ attrAddr o < 757504 := by
    rw [attrAddr_eq]
    omega
  rw [scrolledByte_eq, if_pos hrows, hbelow]

/-! ### The cost of a character -/

/-- The character path costs its cell's two writes, unless it is a newline, one scroll, if there is one, and the cursor
write (R242). -/
theorem busCost_charTxns (old : Nat → Byte) (o : Nat) (ch attr : Byte) :
    busCost (charTxns old o ch attr) =
      ((⟨0, 0, 0, if ch = Config.newlineChar then 0 else 2⟩ : BusCost).plus
        (if charScrolls o ch then ⟨0, 0, 3840, 3920⟩ else ⟨0, 0, 0, 0⟩)).plus ⟨4, 0, 0, 0⟩ := by
  have hdraw : busCost (if ch = Config.newlineChar then [] else cellTxns o ch attr) =
      ⟨0, 0, 0, if ch = Config.newlineChar then 0 else 2⟩ := by
    split <;> rfl
  have hscroll : busCost (if charScrolls o ch then scrollTxns (drawnByte old o ch attr) else []) =
      if charScrolls o ch then ⟨0, 0, 3840, 3920⟩ else ⟨0, 0, 0, 0⟩ := by
    split
    · exact busCost_scrollTxns _
    · rfl
  rw [charTxns, busCost_append, busCost_append, hdraw, hscroll]
  rfl

/-- A character reads memory for its scroll only (R166). -/
theorem memReads_charTxns (old : Nat → Byte) (o : Nat) (ch attr : Byte) :
    (busCost (charTxns old o ch attr)).memReads = if charScrolls o ch then 3840 else 0 := by
  rw [busCost_charTxns]
  cases charScrolls o ch <;> rfl

end Sys2Proof.Machine
end

section
/-! PROOFS. What PUTC and PUTC_AT leave: one state, by the offset the character is written at (R160 to R162). -/

namespace Sys2Proof.Machine

/-- The state a character written at `o` ends its command in, `m` being the buffer it leaves (R160). -/
def charWritten (o : Nat) (ch attr : Byte) (m : Memory) (s : State) : State :=
  { s with
    result := BitVec.ofNat 32 (charOffset o ch)
    off := BitVec.ofNat 16 (charOffset o ch)
    fsm := .idle
    crtcIndex := Config.curLoIndex
    curHi := hiByte (BitVec.ofNat 16 (charOffset o ch))
    curLo := loByte (BitVec.ofNat 16 (charOffset o ch))
    vram := m
    busLog := (charTxns (Memory.read s.vram) o ch attr).reverse ++ s.busLog }

@[simp] theorem charWritten_cursor (o : Nat) (ch attr : Byte) (m : Memory) (s : State) :
    (charWritten o ch attr m s).cursor = BitVec.ofNat 16 (charOffset o ch) :=
  joinBytes_split _

/-- `RESULT` and the cursor hold the offset exactly (R165). -/
theorem charWritten_result_toNat {o : Nat} (ho : o < 2000) (ch attr : Byte) (m : Memory) (s : State) :
    (charWritten o ch attr m s).result.toNat = charOffset o ch := by
  have hrange := charOffset_range ho ch
  exact Nat.mod_eq_of_lt (by omega)

theorem charWritten_cursor_toNat {o : Nat} (ho : o < 2000) (ch attr : Byte) (m : Memory) (s : State) :
    (charWritten o ch attr m s).cursor.toNat = charOffset o ch := by
  have hrange := charOffset_range ho ch
  rw [charWritten_cursor]
  exact Nat.mod_eq_of_lt (by omega)

/-! ### The buffer after the character path depends on the buffer before it alone -/

/-- The drawing at a given offset: where it leaves `OFF` is fixed, and the buffer it leaves is made of the buffer. -/
theorem drawChar_vram {o : Half} (h : inGrid o.toNat = true) (ch attr : Byte) :
    ∃ (p : Half) (g : Memory → Memory), ∀ s t, drawChar ch attr (setOff o s) = .next t → t.off = p ∧ t.vram = g s.vram := by
  by_cases hc : ch = Config.newlineChar
  · refine ⟨BitVec.ofNat 16 (lineEnd o.toNat), id, fun s t ht => ?_⟩
    rw [drawChar, if_pos hc] at ht
    cases ht
    exact ⟨rfl, rfl⟩
  · obtain ⟨g, txns, hwrite⟩ := writeCell_bufferOnly (inGrid_iff.1 h) ch attr
    refine ⟨o, g, fun s t ht => ?_⟩
    rw [drawChar, if_neg hc] at ht
    cases (hwrite (setOff o s)).symm.trans ht
    exact ⟨rfl, rfl⟩

/-- A scroll at a given offset. -/
theorem scroll_vram (o : Half) : ∃ g : Memory → Memory, ∀ s q, scroll o s = .next q → q.2.vram = g s.vram := by
  cases h : inGrid o.toNat with
  | true =>
    refine ⟨id, fun s q hq => ?_⟩
    cases (scroll_inGrid h s).symm.trans hq
    rfl
  | false =>
    obtain ⟨g1, txns1, hshift⟩ := shiftRows_bufferOnly
    obtain ⟨g2, txns2, hblank⟩ := blankLastRow_bufferOnly
    refine ⟨fun m => g2 (g1 m), fun s q hq => ?_⟩
    simp only [scroll, h, Bool.false_eq_true, if_false, hshift, hblank, Run.andThen_next] at hq
    cases hq
    rfl

theorem advance_off (s : State) : (advance s).off = BitVec.ofNat 16 (s.off.toNat + 1) := rfl

theorem putCharAt_vram {o : Half} (h : inGrid o.toNat = true) (ch attr : Byte) :
    ∃ g : Memory → Memory, ∀ s t, putCharAt o ch attr s = .next t → t.vram = g s.vram := by
  obtain ⟨p, g1, hdraw⟩ := drawChar_vram h ch attr
  obtain ⟨g2, hscroll⟩ := scroll_vram (BitVec.ofNat 16 (p.toNat + 1))
  refine ⟨fun m => g2 (g1 m), fun s t ht => ?_⟩
  obtain ⟨s1, h1, ht⟩ := Run.andThen_eq_next ht
  obtain ⟨s2, h2, ht⟩ := Run.andThen_eq_next ht
  obtain ⟨q, hq, h2⟩ := Run.andThen_eq_next h2
  obtain ⟨hoff, hv1⟩ := hdraw s s1 h1
  rw [advance_off, hoff] at hq
  have hv2 := hscroll _ _ hq
  cases h2
  rw [cursorWrite_eq] at ht
  cases ht
  exact hv2.trans (congrArg g2 hv1)

/-! ### The character path to the end of its command -/

/-- The character path from an offset of the grid (R160). The buffer it leaves is a function of the buffer alone. -/
theorem putCharAt_complete_eq {o : Half} (h : inGrid o.toNat = true) (ch attr : Byte) :
    ∃ g : Memory → Memory, ∀ s,
      (putCharAt o ch attr s).andThen (fun s' => .next (complete s')) =
        .next (charWritten o.toNat ch attr (g s.vram) s) ∧
      ∀ a, Memory.read (g s.vram) a = charByte (Memory.read s.vram) o.toNat ch attr a := by
  obtain ⟨g, hg⟩ := putCharAt_vram h ch attr
  refine ⟨g, fun s => ?_⟩
  obtain ⟨m, he, hm, -⟩ := putCharAt_eq h ch attr s
  have hmg : m = g s.vram := hg s _ he
  subst hmg
  rw [he]
  exact ⟨rfl, hm⟩

/-- PUTC with the cursor in the grid: the whole effect of R161. -/
theorem execPutc_eq {s : State} (h : s.cursor.toNat < 2000) (ch attr : Byte) :
    ∃ m, execPutc ch attr s = .next (charWritten s.cursor.toNat ch attr m (afterCursorRead s)) ∧
      ∀ a, Memory.read m a = charByte (Memory.read s.vram) s.cursor.toNat ch attr a := by
  have hg := inGrid_iff.2 h
  obtain ⟨g, hpath⟩ := putCharAt_complete_eq hg ch attr
  obtain ⟨he, hm⟩ := hpath (afterCursorRead s)
  exact ⟨_, (execPutc_inGrid hg ch attr).trans he, hm⟩

/-- PUTC_AT at a coordinate of the grid: the whole effect of R162. -/
theorem execPutcAt_eq {col row : Nat} (h : coordInGrid col row = true) (ch attr : Byte) (s : State) :
    ∃ m, execPutcAt ch attr col row s = .next (charWritten (offsetOf col row) ch attr m s) ∧
      ∀ a, Memory.read m a = charByte (Memory.read s.vram) (offsetOf col row) ch attr a := by
  obtain ⟨g, hpath⟩ := putCharAt_complete_eq (offsetOf_half_inGrid h) ch attr
  obtain ⟨he, hm⟩ := hpath s
  rw [offsetOf_half_toNat h] at he hm
  exact ⟨_, (execPutcAt_inGrid h ch attr s).trans he, hm⟩

end Sys2Proof.Machine
end

section
/-! PROOFS. The statements of 43_character_write about PUTC and PUTC_AT. -/

namespace Sys2Proof.Machine

/-! ### The two commands whole -/

/-- Settles O40: the character path from the cursor, or a fault after the cursor read. -/
theorem putcWritesAtTheCursor : Obligations.PutcWritesAtTheCursor := by
  refine ⟨decodesAs_opcodeRow (.putc 0 0), fun ch attr s h => ?_, fun ch attr s h => ?_⟩
  · obtain ⟨m, he, hm⟩ := execPutc_eq h ch attr
    refine ⟨_, he, rfl, rfl, charWritten_cursor _ _ _ _ _, rfl, hm, ?_, ⟨rfl, rfl, rfl⟩, rfl, rfl⟩
    exact (afterCursorRead_performed s).trans rfl
  · exact execPutc_outOfGrid (inGrid_false_iff.2 h) ch attr

/-- Settles O41: the character path from the offset of the coordinate, or a fault before any transaction. -/
theorem putcAtWritesAtTheCoordinate : Obligations.PutcAtWritesAtTheCoordinate := by
  refine ⟨decodesAs_opcodeRow (.putcAt 0 0 0 0), fun ch attr col row s hcol hrow => ?_, fun ch attr col row s h => ?_⟩
  · obtain ⟨m, he, hm⟩ := execPutcAt_eq (coordInGrid_iff.2 ⟨hcol, hrow⟩) ch attr s
    exact ⟨_, he, rfl, rfl, charWritten_cursor _ _ _ _ _, rfl, hm, rfl, ⟨rfl, rfl, rfl⟩, rfl, rfl⟩
  · have hout : coordInGrid col row = false := by
      rw [← Bool.not_eq_true, coordInGrid_iff]
      omega
    exact execPutcAt_coordRange hout ch attr s

/-! ### The cases of a character -/

/-- PUTC with the cursor in the grid, its offset in numbers. -/
theorem putc_next {s : State} (h : s.cursor.toNat < 2000) (ch attr : Byte) :
    ∃ t, exec (.putc ch attr) s = .next t ∧
      (∀ a, Memory.read t.vram a = charByte (Memory.read s.vram) s.cursor.toNat ch attr a) ∧
      t.cursor.toNat = charOffset s.cursor.toNat ch ∧ t.result.toNat = charOffset s.cursor.toNat ch := by
  obtain ⟨m, he, hm⟩ := execPutc_eq h ch attr
  exact ⟨_, he, hm, charWritten_cursor_toNat h _ _ _ _, charWritten_result_toNat h _ _ _ _⟩

/-- Settles O42: below 1999 nothing scrolls, so the buffer is the one drawn. -/
theorem putcOrdinaryCharacter : Obligations.PutcOrdinaryCharacter := by
  intro ch attr s hc h
  obtain ⟨t, he, hread, hcur, hres⟩ := putc_next (Nat.lt_succ_of_lt h) ch attr
  have hadv : advanced s.cursor.toNat ch = s.cursor.toNat + 1 := advanced_of_ne_newline hc _
  have hstay : charScrolls s.cursor.toNat ch = false := by
    rw [charScrolls_eq_false_iff, hadv]
    omega
  simp only [charByte_of_not_scrolls hstay] at hread
  rw [charOffset_of_not_scrolls hstay, hadv] at hcur hres
  exact ⟨t, he, (hread _).trans (drawnByte_cellAddr hc _ _ _), (hread _).trans (drawnByte_attrAddr hc _ _ _),
    fun a ha => (hread a).trans (drawnByte_other _ _ _ ha), hcur, hres⟩

/-- Settles O43: above the last row nothing scrolls, and a newline draws nothing. -/
theorem putcNewline : Obligations.PutcNewline := by
  intro attr s h
  obtain ⟨t, he, hread, hcur, hres⟩ := putc_next (s := s) (by omega) Config.newlineChar attr
  have hstay : charScrolls s.cursor.toNat Config.newlineChar = false := by
    rw [charScrolls_eq_false_iff, advanced_newline]
    omega
  rw [charOffset_of_not_scrolls hstay, advanced_newline] at hcur hres
  refine ⟨t, he, fun a => ?_, hcur, hres⟩
  rw [hread, charByte_of_not_scrolls hstay, drawnByte_newline]

/-- Settles O44: the cells 1920 to 1999 as drawn move to 1840 to 1919, then the last row's characters are blanked. -/
theorem putcAtTheLastCellScrolls : Obligations.PutcAtTheLastCellScrolls := by
  intro ch attr s hc h
  obtain ⟨t, he, hread, hcur, hres⟩ := putc_next (s := s) (by omega) ch attr
  rw [h] at hread hcur hres
  have hscroll : charScrolls 1999 ch = true := (charScrolls_iff (by decide) ch).2 (.inl ⟨hc, rfl⟩)
  simp only [charByte_of_scrolls hscroll] at hread
  rw [charOffset_of_scrolls (by decide) hscroll] at hcur hres
  have hlast : cellAddr 1999 = rowByteAddr 24 (2 * 79) ∧ attrAddr 1999 = rowByteAddr 24 (2 * 79 + 1) := ⟨rfl, rfl⟩
  refine ⟨t, he, ?_, ?_, ?_, ?_, fun o ho => ⟨?_, ?_⟩, hcur, hres⟩
  · rw [hread, scrolledByte_cellAddr _ (by decide)]
    exact drawnByte_cellAddr hc _ _ _
  · rw [hread, scrolledByte_attrAddr _ (by decide)]
    exact drawnByte_attrAddr hc _ _ _
  · rw [hread, hlast.1]
    exact scrolledByte_lastRow_char _ (by decide)
  · rw [hread, hlast.2, scrolledByte_lastRow_attr, ← hlast.2]
    exact drawnByte_attrAddr hc _ _ _
  · rw [hread, scrolledByte_cellAddr _ (by omega), drawnByte_cellAddr_other _ _ _ (by omega)]
  · rw [hread, scrolledByte_attrAddr _ (by omega), drawnByte_attrAddr_other _ _ _ (by omega)]

/-- Settles O45: the memory reads of the command are those of its scroll. -/
theorem whenACharacterScrolls : Obligations.WhenACharacterScrolls := by
  intro ch attr s h
  obtain ⟨m, he, -⟩ := execPutc_eq h ch attr
  have hreads : (busCost (cursorReadTxns s.cursor ++ charTxns (Memory.read s.vram) s.cursor.toNat ch attr)).memReads =
      if charScrolls s.cursor.toNat ch then 3840 else 0 := by
    rw [busCost_append, ← memReads_charTxns (Memory.read s.vram) s.cursor.toNat ch attr]
    exact Nat.zero_add _
  refine ⟨_, cursorReadTxns s.cursor ++ charTxns (Memory.read s.vram) s.cursor.toNat ch attr, he,
    (afterCursorRead_performed s).trans rfl, ?_, ?_⟩
  · refine Iff.trans ?_ (charScrolls_iff h ch)
    rw [hreads]
    cases charScrolls s.cursor.toNat ch <;> decide
  · rw [hreads]
    cases charScrolls s.cursor.toNat ch <;> decide

/-- The state a character leaves is on the screen, with `RESULT` telling where (R165). -/
theorem charWritten_onScreen {o : Nat} (ho : o < 2000) (ch attr : Byte) (m : Memory) (s : State) :
    1 ≤ (charWritten o ch attr m s).cursor.toNat ∧ (charWritten o ch attr m s).cursor.toNat ≤ 1999 ∧
      (charWritten o ch attr m s).result.toNat = (charWritten o ch attr m s).cursor.toNat := by
  obtain ⟨hpos, hle⟩ := charOffset_range ho ch
  rw [charWritten_cursor_toNat ho, charWritten_result_toNat ho]
  exact ⟨hpos, hle, rfl⟩

/-- Settles O46: both commands end in `IDLE` only by way of the character path. -/
theorem characterWritesStayOnScreen : Obligations.CharacterWritesStayOnScreen := by
  intro i s t h hidle hi
  obtain ⟨ch, attr, rfl⟩ | ⟨ch, attr, col, row, rfl⟩ := hi
  · cases hg : inGrid s.cursor.toNat with
    | true =>
      have hlt := inGrid_iff.1 hg
      obtain ⟨m, he, -⟩ := execPutc_eq hlt ch attr
      cases he.symm.trans h
      exact charWritten_onScreen hlt _ _ _ _
    | false =>
      cases (execPutc_outOfGrid hg ch attr).symm.trans h
      cases hidle
  · cases hg : coordInGrid col row with
    | true =>
      obtain ⟨m, he, -⟩ := execPutcAt_eq hg ch attr s
      cases he.symm.trans h
      exact charWritten_onScreen (inGrid_iff.1 (offsetOf_inGrid hg)) _ _ _ _
    | false =>
      cases (execPutcAt_coordRange hg ch attr s).symm.trans h
      cases hidle

/-! ### PUTC_AT as SET_CURSOR and PUTC -/

/-- Settles O47: both run the character path from one offset on one buffer, and it overwrites what the cursor sequences
before it wrote. -/
theorem putcAtIsSetCursorThenPutc : Obligations.PutcAtIsSetCursorThenPutc := by
  intro ch attr col row s hcol hrow
  have hg := coordInGrid_iff.2 ⟨hcol, hrow⟩
  have ho := offsetOf_half_inGrid hg
  obtain ⟨g, hpath⟩ := putCharAt_complete_eq ho ch attr
  have hputc : ∀ u : State, u.cursor = BitVec.ofNat 16 (offsetOf col row) → exec (.putc ch attr) u =
      .next (charWritten (BitVec.ofNat 16 (offsetOf col row)).toNat ch attr (g u.vram) (afterCursorRead u)) := by
    intro u hu
    refine (execPutc_inGrid (by rw [hu]; exact ho) ch attr).trans ?_
    rw [hu]
    exact (hpath (afterCursorRead u)).1
  exact ⟨_, _, _, (execPutcAt_inGrid hg ch attr s).trans (hpath s).1, execSetCursor_eq _ s,
    hputc _ (joinBytes_split _), rfl⟩

end Sys2Proof.Machine
end

section
/-! PROOFS. What CLEAR makes of the bytes and of the buffer as data, and what it costs (R167, R242). -/

namespace Sys2Proof.Machine

/-! ### The bytes and the cost -/

theorem clearedByte_of_inBuffer (old : Nat → Byte) {a : Nat} (h : inBuffer a = true) :
    clearedByte old a = if (a - Config.vbase) % 2 = 0 then Config.blankChar else Config.defaultAttr :=
  if_pos h

/-- The byte of a cleared cell's character (R167). -/
theorem clearedByte_cellAddr (old : Nat → Byte) {o : Nat} (h : o < 2000) :
    clearedByte old (cellAddr o) = Config.blankChar := by
  have heven : (cellAddr o - Config.vbase) % 2 = 0 := by
    rw [cellAddr_eq, Config.vbase]
    omega
  rw [clearedByte_of_inBuffer _ (inBuffer_cellAddr h), if_pos heven]

/-- The byte of a cleared cell's attribute (R167). -/
theorem clearedByte_attrAddr (old : Nat → Byte) {o : Nat} (h : o < 2000) :
    clearedByte old (attrAddr o) = Config.defaultAttr := by
  have hodd : ¬ (attrAddr o - Config.vbase) % 2 = 0 := by
    rw [attrAddr_eq, Config.vbase]
    omega
  rw [clearedByte_of_inBuffer _ (inBuffer_attrAddr h), if_neg hodd]

theorem clearedByte_outsideBuffer (old : Nat → Byte) {a : Nat} (h : ¬ inBuffer a = true) : clearedByte old a = old a :=
  if_neg h

/-- Clearing what is cleared changes nothing (R167). -/
theorem clearedByte_clearedByte (old : Nat → Byte) (a : Nat) : clearedByte (clearedByte old) a = clearedByte old a := by
  by_cases h : inBuffer a = true
  · rw [clearedByte_of_inBuffer _ h, clearedByte_of_inBuffer _ h]
  · rw [clearedByte_outsideBuffer _ h]

/-- Each cell filled costs two writes (R167). -/
theorem busCost_fillTxns (os : List Nat) : busCost (fillTxns os) = ⟨0, 0, 0, os.length * 2⟩ := by
  induction os with
  | nil => rfl
  | cons o os ih =>
    have hone : busCost (cellTxns o Config.blankChar Config.defaultAttr) = ⟨0, 0, 0, 2⟩ := rfl
    have hcons : fillTxns (o :: os) = cellTxns o Config.blankChar Config.defaultAttr ++ fillTxns os := rfl
    rw [hcons, busCost_append, hone, ih]
    simp [BusCost.plus, Nat.add_mul, Nat.add_comm]

/-! ### The buffer as data -/

namespace Memory

/-- Every byte of the video buffer has been written since power-on (log 3). -/
def Full (m : Memory) : Prop := ∀ a, inBuffer a = true → (lookup m a).isSome = true

theorem lookup_write (m : Memory) (a b : Nat) (v : Byte) :
    lookup (write m a v) b = if b = a then some v else lookup m b := by
  split
  · next h => rw [h, lookup_write_same]
  · next h => exact lookup_write_other m v h

/-- Nothing that has been written becomes unwritten. -/
theorem isSome_lookup_write (m : Memory) (a b : Nat) (v : Byte) :
    (lookup (write m a v) b).isSome = (decide (b = a) || (lookup m b).isSome) := by
  rw [lookup_write]
  by_cases h : b = a <;> simp [h]

/-- A written byte is what a read gives (R41). -/
theorem lookup_eq_some_read {m : Memory} {a : Nat} (h : (lookup m a).isSome = true) : lookup m a = some (read m a) := by
  obtain ⟨v, hv⟩ := Option.isSome_iff_exists.1 h
  rw [read, hv]
  rfl

theorem mem_of_lookup {m : Memory} {a : Nat} {v : Byte} (h : lookup m a = some v) : (a, v) ∈ m := by
  induction m with
  | nil => cases h
  | cons c m ih =>
    obtain ⟨k, u⟩ := c
    by_cases hk : a = k
    · subst hk
      rw [lookup_head] at h
      cases h
      exact List.mem_cons_self
    · rw [lookup, if_neg hk] at h
      exact List.mem_cons_of_mem _ (ih h)

/-- A buffer in canonical form holds nothing outside the video buffer (R30). -/
theorem lookup_outsideBuffer {m : Memory} (hm : wf m) {a : Nat} (h : ¬ inBuffer a = true) : lookup m a = none :=
  Option.eq_none_iff_forall_ne_some.2 fun _ hv => h (hm.2 _ (mem_of_lookup hv))

/-- Two full buffers in canonical form that read the same are the same data. -/
theorem eq_of_read_eq {m n : Memory} (hm : wf m) (hn : wf n) (hmf : Full m) (hnf : Full n)
    (h : ∀ a, inBuffer a = true → read m a = read n a) : m = n := by
  refine eq_of_lookup_eq hm.1 hn.1 fun a => ?_
  by_cases ha : inBuffer a = true
  · rw [lookup_eq_some_read (hmf a ha), lookup_eq_some_read (hnf a ha), h a ha]
  · rw [lookup_outsideBuffer hm ha, lookup_outsideBuffer hn ha]

end Memory

/-- Both bytes of a cell of the grid, in the buffer as data. -/
theorem writeCell_eq {o : Nat} (h : o < 2000) (ch attr : Byte) (s : State) :
    writeCell o ch attr s = .next
      { s with
        vram := Memory.write (Memory.write s.vram (cellAddr o) ch) (attrAddr o) attr
        busLog := .memWrite (attrAddr o) attr :: .memWrite (cellAddr o) ch :: s.busLog } := by
  rw [writeCell, memWrite_inBuffer (inBuffer_cellAddr h), Run.andThen_next, memWrite_inBuffer (inBuffer_attrAddr h)]

/-- The first `n` cells have been written. -/
theorem clearCells_written {n : Nat} (hn : n ≤ 2000) {s t : State}
    (ht : forEach clearCell (List.range n) s = .next t) {a : Nat} (ha : cellAddr 0 ≤ a ∧ a < cellAddr n) :
    (Memory.lookup t.vram a).isSome = true := by
  induction n generalizing t with
  | zero => omega
  | succ n ih =>
    rw [List.range_succ, forEach_snoc] at ht
    obtain ⟨u, hu, ht⟩ := Run.andThen_eq_next ht
    rw [clearCell, writeCell_eq (by omega)] at ht
    cases ht
    rw [Memory.isSome_lookup_write, Memory.isSome_lookup_write]
    by_cases hprev : a < cellAddr n
    · simp [ih (by omega) hu ⟨ha.1, hprev⟩]
    · have hcell : a = cellAddr n ∨ a = attrAddr n := by
        have e0 := cellAddr_eq n
        have e1 := attrAddr_eq n
        have e2 := cellAddr_eq (n + 1)
        omega
      obtain rfl | rfl := hcell <;> simp

/-- CLEAR writes every byte of the buffer (R167). -/
theorem execClear_full {s t : State} (h : execClear s = .next t) : Memory.Full t.vram := by
  intro a ha
  obtain ⟨u, hfill, h⟩ := Run.andThen_eq_next h
  rw [cursorWrite_eq] at h
  cases h
  refine clearCells_written (n := 2000) (Nat.le_refl _) hfill ?_
  rw [inBuffer_iff] at ha
  rw [cellAddr_eq, cellAddr_eq]
  omega

end Sys2Proof.Machine
end

section
/-! PROOFS. The statements of 43_character_write about CLEAR. -/

namespace Sys2Proof.Machine

/-- The state CLEAR ends in, `m` being the buffer it leaves (R167). -/
def cleared (m : Memory) (s : State) : State :=
  { s with
    fsm := .idle
    crtcIndex := Config.curLoIndex
    curHi := 0
    curLo := 0
    vram := m
    busLog := (fillTxns (List.range Config.cells) ++ cursorWriteTxns 0).reverse ++ s.busLog }

/-- CLEAR: the whole effect of R167, the buffer as data with it. -/
theorem execClear_next (s : State) :
    ∃ m, execClear s = .next (cleared m s) ∧ (∀ a, Memory.read m a = clearedByte (Memory.read s.vram) a) ∧
      Memory.Full m ∧ (BufferInv s → Memory.wf m) := by
  obtain ⟨m, he, hm, hw⟩ := execClear_eq s
  exact ⟨m, he, hm, execClear_full he, hw⟩

/-- Settles O48: the fill leaves nothing of the cells it covers, and the second fill finds what the first left. -/
theorem clearBlanksEveryCell : Obligations.ClearBlanksEveryCell := by
  refine ⟨decodesAs_opcodeRow .clear, fun s => ?_⟩
  obtain ⟨m, he, hm, -, -⟩ := execClear_next s
  obtain ⟨n, hne, hn, -, -⟩ := execClear_next (cleared m s)
  have hsame : SameBuffer (cleared m s) (cleared n (cleared m s)) := fun a => by
    have hread : Memory.read m = clearedByte (Memory.read s.vram) := funext hm
    refine (hn a).trans ?_
    change clearedByte (Memory.read m) a = Memory.read m a
    rw [hread, clearedByte_clearedByte]
  have hcost : busCost (fillTxns (List.range 2000) ++ cursorWriteTxns 0) = ⟨4, 0, 0, 4000⟩ := by
    rw [busCost_append, busCost_fillTxns, List.length_range]
    rfl
  exact ⟨_, he, rfl,
    fun o ho => ⟨(hm _).trans (clearedByte_cellAddr _ ho), (hm _).trans (clearedByte_attrAddr _ ho)⟩,
    fun a ha => (hm a).trans (clearedByte_outsideBuffer _ ha), rfl, ⟨_, rfl, hcost⟩, _, hne, hsame, ⟨rfl, rfl, rfl⟩, rfl⟩

/-- Settles O49: CLEAR leaves a full buffer in canonical form, and such a buffer is given by what it reads. -/
theorem clearForgetsTheScreen : Obligations.ClearForgetsTheScreen := by
  intro s u hs hu
  obtain ⟨m, he, hm, hmf, hmw⟩ := execClear_next s
  obtain ⟨n, hne, hn, hnf, hnw⟩ := execClear_next u
  obtain ⟨p, hpe, hp, hpf, hpw⟩ := execClear_next (cleared m s)
  have hwf := hmw hs
  have hmn : m = n := Memory.eq_of_read_eq hwf (hnw hu) hmf hnf fun a ha => by
    rw [hm, hn, clearedByte_of_inBuffer _ ha, clearedByte_of_inBuffer _ ha]
  have hpm : p = m := Memory.eq_of_read_eq (hpw hwf) hwf hpf hmf fun a ha => by
    rw [hp, hm, clearedByte_of_inBuffer _ ha, clearedByte_of_inBuffer _ ha]
  subst hpm
  exact ⟨_, _, he, hne, hmn, rfl, rfl, _, hpe, rfl⟩

end Sys2Proof.Machine
end

section
/-! PROOFS. The statements of 60_exceptions: what a fault writes and keeps, when each of the two faults of a decoded command
is raised, the halted and the idle block, and the one way the cursor leaves the screen. -/

namespace Sys2Proof.Machine

/-! ### The cursor on the screen -/

/-- The cursor is held in the adapter's registers alone (R28). -/
theorem SameAdapter.cursor_eq {s t : State} (h : SameAdapter s t) : t.cursor = s.cursor := by
  obtain ⟨-, hhi, hlo⟩ := h
  rw [State.cursor, hhi, hlo, State.cursor]

/-- A character command that completes leaves the cursor on the screen, and one that faults keeps it (R165, R205). -/
theorem exec_character_cursor {i : Instr} {s t : State} (h : exec i s = .next t)
    (hi : (∃ ch attr, i = .putc ch attr) ∨ ∃ ch attr col row, i = .putcAt ch attr col row) :
    t.cursor = s.cursor ∨ CursorOnScreen t := by
  obtain hidle | hhalt := (ending_of_exec h).fsm
  · obtain ⟨-, hle, -⟩ := characterWritesStayOnScreen i s t h hidle hi
    exact .inr (inGrid_iff.2 (Nat.lt_succ_of_le hle))
  · exact .inl ((ending_of_exec h).cursor_of_halted hhalt)

/-- What a command does with the cursor: it keeps it, puts it on the screen, or sets it to its operand (R120, R125, R165). -/
theorem exec_cursor {i : Instr} {s t : State} (h : exec i s = .next t) :
    t.cursor = s.cursor ∨ CursorOnScreen t ∨ i = .setCursor t.cursor := by
  obtain ⟨hkeepsAdapter, hkeepsCursor⟩ := cursorKeptBySomeCommands s
  cases i with
  | offsetOf col row => exact .inl (hkeepsAdapter _ t h (.inl ⟨col, row, rfl⟩)).cursor_eq
  | rowOf off => exact .inl (hkeepsAdapter _ t h (.inr (.inl ⟨off, rfl⟩))).cursor_eq
  | cellAddr off => exact .inl (hkeepsAdapter _ t h (.inr (.inr (.inl ⟨off, rfl⟩)))).cursor_eq
  | getCursor => exact .inl (hkeepsCursor _ t h (.inl rfl))
  | setCursor off =>
    cases (execSetCursor_eq off s).symm.trans h
    exact .inr (.inr (congrArg Instr.setCursor (joinBytes_split off).symm))
  | scroll off => exact .inl (hkeepsAdapter _ t h (.inr (.inr (.inr ⟨off, rfl⟩)))).cursor_eq
  | putc ch attr => exact (exec_character_cursor h (.inl ⟨ch, attr, rfl⟩)).imp_right .inl
  | putcAt ch attr col row => exact (exec_character_cursor h (.inr ⟨ch, attr, col, row, rfl⟩)).imp_right .inl
  | clear =>
    obtain ⟨m, he, -⟩ := execClear_eq s
    cases he.symm.trans h
    have hhome : inGrid (joinBytes 0 0).toNat = true := by decide
    exact .inr (.inl hhome)

/-- Settles O20, by the ways a step leads on: only a command touches the cursor, and of the commands only SET_CURSOR puts it
where its operand says. -/
theorem onlySetCursorLeavesTheScreen : Obligations.OnlySetCursorLeavesTheScreen := by
  intro s t hs h ht
  cases onward_of_step h with
  | reset => exact absurd hs ht
  | quiet => exact absurd hs ht
  | illegal => exact absurd hs ht
  | command hsub hd =>
    obtain hkept | hscreen | rfl := exec_cursor ((step_of_decode_ok hsub hd).symm.trans h)
    · exact absurd (by rw [CursorOnScreen, hkept]; exact hs) ht
    · exact absurd hscreen ht
    · exact ⟨_, _, _, hsub.2, hd, Bool.eq_false_iff.2 ht, rfl⟩

/-! ### Fault entry -/

/-- Settles O50: in `HALTED` the block is not busy, so `STATUS` reads as fault entry stored it. -/
theorem faultStatusWords : Obligations.FaultStatusWords := by
  refine ⟨by decide, by decide, by decide, fun c val w s => ⟨rfl, ?_⟩⟩
  have hview : (raiseFault c val w s).statusView = faultStatus c := statusView_of_not_busy rfl
  rw [hview]
  cases c <;> decide

/-- The word in `STATUS` tells OUT_OF_GRID from the other causes (R200). -/
theorem faultStatus_eq_outOfGrid_iff {c : FaultCause} : faultStatus c = faultStatus .outOfGrid ↔ c = .outOfGrid := by
  cases c <;> decide

/-! ### When a decoded command faults -/

theorem coordInGrid_false_iff {col row : Nat} : coordInGrid col row = false ↔ 80 ≤ col ∨ 25 ≤ row := by
  rw [← Bool.not_eq_true, coordInGrid_iff]
  omega

/-- Settles O51: the character path of PUTC_AT ends in `IDLE`; the fault is raised in the state the command began in. -/
theorem coordRangeExactly : Obligations.CoordRangeExactly := by
  intro s ch attr col row
  cases hg : coordInGrid col row with
  | true =>
    obtain ⟨m, he, -⟩ := execPutcAt_eq hg ch attr s
    have hin : ¬ (80 ≤ col ∨ 25 ≤ row) := by simp [← coordInGrid_false_iff, hg]
    exact ⟨_, he, ⟨nofun, fun hout => absurd hout hin⟩, nofun, _, rfl, rfl⟩
  | false =>
    exact ⟨_, execPutcAt_coordRange hg ch attr s, ⟨fun _ => coordInGrid_false_iff.1 hg, fun _ => rfl⟩,
      fun _ => ⟨rfl, rfl⟩, _, rfl, rfl⟩

/-- Settles O52: the character path of PUTC ends in `IDLE`; the fault is raised in the state the cursor read left. -/
theorem outOfGridExactly : Obligations.OutOfGridExactly := by
  intro s ch attr
  cases hg : inGrid s.cursor.toNat with
  | true =>
    have hlt := inGrid_iff.1 hg
    obtain ⟨m, he, -⟩ := execPutc_eq hlt ch attr
    exact ⟨_, he, ⟨nofun, fun hout => absurd hlt (Nat.not_lt.2 hout)⟩, nofun⟩
  | false =>
    exact ⟨_, execPutc_outOfGrid hg ch attr, ⟨fun _ => inGrid_false_iff.1 hg, fun _ => rfl⟩,
      fun _ => ⟨rfl, rfl, rfl, afterCursorRead_performed s⟩⟩

/-! ### What a submitted word that faults leaves -/

/-- A submitted word that halts the block has entered a fault with itself in `FAULT_CMD`: OUT_OF_GRID after the cursor read,
any other cause in the state the word was accepted in (R201 to R203). -/
theorem faulted_of_step {s t : State} {w : Word} {rest : List HostAction} (hs : Submits w rest s)
    (h : step s = .next t) (hhalt : t.fsm = .halted) :
    (∃ cause, cause ≠ .outOfGrid ∧ t = raiseFault cause 0 w { s with host := rest, fsm := .exec }) ∨
      t = raiseFault .outOfGrid s.cursor w (afterCursorRead { s with host := rest, fsm := .exec }) := by
  cases hd : decode w with
  | error e =>
    cases (step_of_decode_error hs hd).symm.trans h
    exact .inl ⟨.illegalCommand, nofun, rfl⟩
  | ok i =>
    have hend := ending_of_exec ((step_of_decode_ok hs hd).symm.trans h)
    rw [← encode_of_decode hd]
    cases hend with
    | completed hc => cases hc.idle.symm.trans hhalt
    | coordRange => exact .inl ⟨.coordRange, nofun, rfl⟩
    | outOfGrid => exact .inr rfl

/-- Settles O53: fault entry writes `STATUS`, `FAULT_CMD`, `FAULT_VAL` and the sequencer only, and what is done before it is
nothing or a cursor read. -/
theorem faultsArePrecise : Obligations.FaultsArePrecise := by
  intro s t w rest hs h hhalt
  obtain ⟨cause, hcause, rfl⟩ | rfl := faulted_of_step hs h hhalt
  · exact ⟨rfl, rfl, rfl, rfl, rfl, fun hst => absurd (faultStatus_eq_outOfGrid_iff.1 hst) hcause,
      fun _ => ⟨rfl, rfl, rfl, rfl⟩⟩
  · exact ⟨rfl, rfl, rfl, rfl, rfl, fun _ => ⟨rfl, rfl⟩, fun hst => absurd rfl hst⟩

/-! ### The halted and the idle block -/

/-- A halted block does not take a word (R206). -/
theorem step_of_submit_halted {s : State} {w : Word} {rest : List HostAction} (hf : s.fsm = .halted)
    (hh : s.host = .submit w :: rest) : step s = .fault .halted := by
  simp only [step, meetHost, hh, meetWord, hf]

/-- Settles O9: of the ways a step leads on, all but the reset begin in `IDLE`. -/
theorem haltedTakesNoCommand : Obligations.HaltedTakesNoCommand := by
  refine fun s hf => ⟨fun w rest hh => step_of_submit_halted hf hh, fun t h => ?_, fun r => ?_⟩
  · cases onward_of_step h with
    | reset hh => exact ⟨_, hh⟩
    | quiet hidle => cases hidle.symm.trans hf
    | illegal hsub => cases hsub.1.symm.trans hf
    | command hsub => cases hsub.1.symm.trans hf
  · have hbusy := busy_eq_false_iff.2 (.inr hf)
    simp [hostRead, hostMayRead, hbusy]

/-- Settles O11. -/
theorem idleBlockHoldsItsState : Obligations.IdleBlockHoldsItsState := fun _ => step_of_idle

end Sys2Proof.Machine
end

section
/-! PROOFS. The statements of 70_reset_and_hazards: the reset of the block, and the table of the commands' transactions. -/

namespace Sys2Proof.Machine

/-! ### The reset of the block -/

/-- An idle block takes whatever word is submitted, and the step leads on: a command ends, and a word that is none raises a
fault, which is a next state too (R79, R201). -/
theorem step_next_of_submits {s : State} {w : Word} {rest : List HostAction} (hs : Submits w rest s) :
    ∃ t, step s = .next t := by
  cases hd : decode w with
  | error e => exact ⟨_, step_of_decode_error hs hd⟩
  | ok i =>
    obtain ⟨t, he, -⟩ := exec_ends i { s with host := rest, fsm := .exec }
    exact ⟨t, (step_of_decode_ok hs hd).trans he⟩

/-- Settles O10: a reset leaves the block in `IDLE`, which takes the next word; of a halted block's steps only the reset leads
on. -/
theorem resetClearsTheBlockOnly : Obligations.ResetClearsTheBlockOnly := by
  refine ⟨fun s rest hh => ?_, fun s t hf h => ?_⟩
  · exact ⟨_, step_of_reset hh, rfl, rfl, rfl, rfl, rfl, ⟨rfl, rfl, rfl⟩, rfl, rfl, rfl,
      fun w more hmore => step_next_of_submits ⟨rfl, hmore⟩⟩
  · obtain ⟨-, hreset, -⟩ := haltedTakesNoCommand s hf
    obtain ⟨rest, hh⟩ := hreset t h
    cases (step_of_reset hh).symm.trans h
    exact ⟨rfl, rest, hh⟩

/-! ### The table of transactions -/

/-- A command costs what its transactions cost. -/
theorem costs_of_exec {i : Instr} {s t : State} (h : exec i s = .next t) : Costs (busCost (execTxns s i)) s t :=
  ⟨_, exec_performed h, rfl⟩

theorem busCost_cursorReadTxns (c : Half) : busCost (cursorReadTxns c) = ⟨2, 2, 0, 0⟩ := rfl

theorem BusCost.zero_plus (c : BusCost) : (⟨0, 0, 0, 0⟩ : BusCost).plus c = c := by
  simp [BusCost.plus]

/-- The four rows of a character, on top of the cost `c` of what comes before the character path: they differ in the scroll
and in the cell's two writes, which a newline does not make (R242). -/
theorem costs_charTxns_rows {c : BusCost} {old : Nat → Byte} {o : Nat} {ch attr : Byte} {s t : State}
    (h : Costs (c.plus (busCost (charTxns old o ch attr))) s t) :
    if charScrolls o ch then
      (if ch = Config.newlineChar then Costs (c.plus ⟨4, 0, 3840, 3920⟩) s t else Costs (c.plus ⟨4, 0, 3840, 3922⟩) s t)
    else if ch = Config.newlineChar then Costs (c.plus ⟨4, 0, 0, 0⟩) s t else Costs (c.plus ⟨4, 0, 0, 2⟩) s t := by
  rw [busCost_charTxns] at h
  split_ifs at h ⊢ <;> exact h

/-- The row of SCROLL: one scroll outside the grid, nothing in it (R142). -/
theorem costs_scroll {off : Half} {s t : State} (h : exec (.scroll off) s = .next t) :
    if off.toNat < 2000 then Costs ⟨0, 0, 0, 0⟩ s t else Costs ⟨0, 0, 3840, 3920⟩ s t := by
  have hc := costs_of_exec h
  simp only [execTxns, inGrid_iff] at hc
  split_ifs at hc ⊢
  · exact hc
  · rwa [busCost_scrollTxns] at hc

/-- Settles O54, row by row, from the transactions of each command. -/
theorem transactionCounts : Obligations.TransactionCounts := by
  intro i s t h
  have hc := costs_of_exec h
  cases i with
  | offsetOf col row => exact hc
  | rowOf off => exact hc
  | cellAddr off => exact hc
  | getCursor => exact hc
  | setCursor off => exact hc
  | scroll off => exact costs_scroll h
  | putc ch attr =>
    dsimp only
    rw [execTxns, busCost_append, busCost_cursorReadTxns] at hc
    split
    case isTrue hout =>
      rw [inGrid_false_iff.2 hout] at hc
      exact hc
    case isFalse hin =>
      rw [if_pos (inGrid_iff.2 (Nat.not_le.1 hin))] at hc
      exact costs_charTxns_rows hc
  | putcAt ch attr col row =>
    dsimp only
    rw [execTxns] at hc
    split
    case isTrue hout =>
      rw [coordInGrid_false_iff.2 hout] at hc
      exact hc
    case isFalse hin =>
      have hg : coordInGrid col row = true := by rwa [← Bool.not_eq_false, coordInGrid_false_iff]
      rw [if_pos hg, ← BusCost.zero_plus (busCost _)] at hc
      exact costs_charTxns_rows hc
  | clear =>
    rw [execTxns, busCost_append, busCost_fillTxns, List.length_range] at hc
    exact hc

end Sys2Proof.Machine
end

section
/-! PROOFS. The words the spec writes out (40 to 43, 95). -/

namespace Sys2Proof.Machine

/-- A word that is the word of a well-formed command stands for that command (R72 to R79). -/
theorem decode_of_encode_eq {i : Instr} {w : Word} (hi : i.WellFormed = true) (hw : encode i = w) : decode w = .ok i :=
  hw ▸ decode_encode hi

/-- Settles O7: each of the nine words is the word of its command, the zero word has a reserved opcode, and the last word
has the opcode of OFFSET_OF over a reserved field that is not zero. -/
theorem specWordsDecode : Obligations.SpecWordsDecode := by
  refine ⟨?offsetOf, ?rowOf, ?cellAddr, ?getCursor, ?setCursor, ?scroll, ?putc, ?putcAt, ?clear, ?zeroWord, ?reservedBit⟩
  case zeroWord => exact decode_of_reservedOpcode (.inl rfl)
  case reservedBit => exact decode_of_reservedField (.offsetOf 0 0) rfl rfl
  all_goals exact decode_of_encode_eq rfl rfl

end Sys2Proof.Machine
end
